-- ==== Sys2Proof/Word.lean ====
section
/-! DEFINITION. The word types of the Morse codec core and the names it gives to its one-bit values
(spec 00_scope.md R7, R8, R11; 30_encoding.md R60, R66, R67; 41_decoder.md R131). -/

namespace Sys2Proof

/-- A character: 8 bits, unsigned, an ASCII code point (30 R66, 20 R43, decision D1). -/
abbrev Character := BitVec 8

/-- A packed Morse code: 16 bits (00 R7, 30 R60). -/
abbrev Code := BitVec 16

/-- A request word: 18 bits, `OP` in [17:16] and `OPERAND` in [15:0] (30 R67). -/
abbrev RequestWord := BitVec 18

/-- The magic index as the hardware computes it: 10 bits, 0..1023 (41 R131). -/
abbrev MagicIndex := BitVec 10

/-- A Morse symbol; in a packed code a DIT is the bit 0 and a DAH the bit 1 (00 R11). -/
inductive Symbol where
  | dit
  | dah
deriving DecidableEq, Repr, Inhabited

/-- The `status` field of a response (10 R26). -/
inductive Status where
  | ok
  | fault
deriving DecidableEq, Repr, Inhabited

/-- The byte order in which a host stores or sends a packed code (20 R42, decision D21). -/
inductive ByteOrder where
  | little
  | big
deriving DecidableEq, Repr, Inhabited

end Sys2Proof
end

