-- ==== Sys2Proof/Syntax.lean ====
section
/-! DEFINITION. The four operations of the block, one constructor per row of the opcode table
(00_scope.md R2, 30_encoding.md R68, R69). The sink of `encode` and `decode` has no operand field:
it is the port's own event stream (30 R69). -/

namespace Sys2Proof

/-- The block's operations ("instructions", 00 R3) with their operands. -/
inductive Instr where
  /-- `char_to_code`: the packed code of a character (40 R105). -/
  | charToCode (ch : Character)
  /-- `encode`: the packed code of a character, delivered to the sink (40 R106). -/
  | encode (ch : Character)
  /-- `code_to_char`: the character of a packed code (41 R134). -/
  | codeToChar (code : Code)
  /-- `decode`: the character of a packed code, delivered to the sink (41 R135). -/
  | decode (code : Code)
deriving DecidableEq, Repr

/-- A request as a host issues it: the request word and the port it is issued on (10 R26, R29;
30 R67). -/
structure Request where
  port : Nat
  word : RequestWord
deriving DecidableEq, Repr

end Sys2Proof
end

