-- ==== Sys2Proof/WellFormed.lean ====
section
/-! DEFINITION. Which request words and requests are well formed (30_encoding.md R70, R73;
10_state.md R29). -/

namespace Sys2Proof

/-- `OP`, bits [17:16] of a request word (30 R67). -/
def requestOp (w : RequestWord) : BitVec 2 := w.extractLsb' 16 2

/-- `OPERAND`, bits [15:0] of a request word (30 R67). -/
def requestOperand (w : RequestWord) : BitVec 16 := w.extractLsb' 0 16

/-- `OPERAND[15:8]`, the reserved byte of a character request (30 R69, R70). -/
def requestReservedByte (w : RequestWord) : BitVec 8 := w.extractLsb' 8 8

/-- The legal request words of 30 R73: every one with `OP` = 10 or 11, and every one with `OP` = 00
or 01 and a zero reserved byte. -/
def requestLegal (w : RequestWord) : Bool :=
  requestOp w == 2#2 || requestOp w == 3#2 || requestReservedByte w == 0#8

/-- A request is well formed for a block of `numPorts` ports: its port exists (10 R29) and its word
is legal (30 R73). -/
def Request.wellFormed (numPorts : Nat) (r : Request) : Bool :=
  decide (r.port < numPorts) && requestLegal r.word

/-- An instruction term is well formed whatever its operand: a character operand is 8 bits and a
code operand 16, all values accepted (30 R69), and the types say so. What can be ill formed is a
request word (`requestLegal`). -/
def Instr.wellFormed (i : Instr) : Bool :=
  match i with
  | .charToCode _ => true
  | .encode _ => true
  | .codeToChar _ => true
  | .decode _ => true

end Sys2Proof
end

