-- ==== Sys2Proof/Decode.lean ====
section
/-! DEFINITION. The request decoder, total on all 18-bit words and refusing the reserved ones by name
(30_encoding.md R67 to R70, R73), and after it the encoder, both written from the spec's encodings
(opcode_table.json, 40 R105, R106, 41 R134, R135). -/

namespace Sys2Proof

/-- Why a request word has no instruction. -/
inductive DecodeError where
  /-- `OPERAND[15:8] != 0` in a character request (30 R70, 60 R163). -/
  | reservedOperand
deriving DecidableEq, Repr

/-- What the decoder reads from a request word. -/
inductive Decoded where
  | instr (i : Instr)
  | rejected (e : DecodeError)
deriving DecidableEq, Repr

/-- The operand of a character request: `ch = OPERAND[7:0]`, with `OPERAND[15:8]` required to be 0
(30 R69, R70). -/
def decodeCharacter (operation : Character → Instr) (operand : BitVec 16) : Decoded :=
  if operand.extractLsb' 8 8 = 0#8 then .instr (operation (operand.extractLsb' 0 8))
  else .rejected .reservedOperand

/-- The request decoder: every value of `OP` selects an operation (30 R68). -/
def decodeRequest (w : RequestWord) : Decoded :=
  if requestOp w = 0#2 then decodeCharacter .charToCode (requestOperand w)
  else if requestOp w = 1#2 then decodeCharacter .encode (requestOperand w)
  else if requestOp w = 2#2 then .instr (.codeToChar (requestOperand w))
  else .instr (.decode (requestOperand w))

/-- A request word from its two fields, `OP` in [17:16] and `OPERAND` in [15:0] (30 R67). -/
def requestWord (op : BitVec 2) (operand : BitVec 16) : RequestWord := op ++ operand

/-- The operand of a character request: `00000000 cccccccc` (30 R69; opcode_table.json). -/
def characterOperand (ch : Character) : BitVec 16 := 0#8 ++ ch

/-- The request word of an instruction (opcode_table.json; 30 R67 to R69). -/
def encodeRequest (i : Instr) : RequestWord :=
  match i with
  | .charToCode ch => requestWord 0#2 (characterOperand ch)
  | .encode ch => requestWord 1#2 (characterOperand ch)
  | .codeToChar code => requestWord 2#2 code
  | .decode code => requestWord 3#2 code

/-- The request word held in the low `nbits` bits of a number, if the number is one: a request is 18
bits (30 R67, R74), so a number with a higher bit set is no request word (log 18). -/
def requestWordOf (nbits w : Nat) : Option RequestWord :=
  if w % 2 ^ nbits < 2 ^ 18 then some (BitVec.ofNat 18 (w % 2 ^ nbits)) else none

/-- The instruction the decoder reads from an opcode-table word, its bits numbered as the table
numbers them. -/
def decodeTableWord (nbits w : Nat) : Option Instr :=
  match requestWordOf nbits w with
  | none => none
  | some word =>
    match decodeRequest word with
    | .instr i => some i
    | .rejected _ => none

end Sys2Proof
end

