-- ==== Sys2Proof/Config.lean ====
section
/-! DEFINITION. What the build of the block fixes (00_scope.md R7, 10_state.md R24, R31) and the
values the spec leaves open. Every `opaque` constant below has no body: nothing can evaluate it or
prove a value of it, so a claim holds whatever it is. -/

namespace Sys2Proof

/-- One entry of `PUNCT_ROM`: an 8-bit key character and its 16-bit packed code (10 R24). -/
structure PunctEntry where
  key  : Character
  code : Code
deriving DecidableEq, Repr, Inhabited

/-- The parameters the spec marks OPEN among the tables: `PUNCT_ROM` with `PUNCT_COUNT` its length,
`ERROR_CODE` and `MAGIC_ROM` (00 R7). -/
structure OpenTables where
  punctRom  : List PunctEntry
  errorCode : Code
  magicRom  : Vector Character 256
deriving DecidableEq, Repr, Inhabited

/-- The build-time contents of the block: its four constant ROMs and the `ERROR` sentinel (10 R24,
R31). The constraints on them are `Build.wf` of Machine/Roms.lean. -/
structure Build where
  /-- `LETTER_ROM`, indexed by `ch - 'A'`. -/
  letterRom : Vector Code 26
  /-- `DIGIT_ROM`, indexed by `ch - '0'`. -/
  digitRom  : Vector Code 10
  /-- `PUNCT_ROM` in ROM order; its length is `PUNCT_COUNT`. -/
  punctRom  : List PunctEntry
  /-- `ERROR_CODE`. -/
  errorCode : Code
  /-- `MAGIC_ROM`, addressed by bits [7:0] of the magic index. -/
  magicRom  : Vector Character 256
deriving DecidableEq, Repr, Inhabited

namespace Config

/-- The OPEN tables of the build (DESIGN CHOICE on the form, log 2; safe). -/
opaque openTables : OpenTables

/-- `NUM_PORTS - 1`; `NUM_PORTS` is OPEN (10 R29, D19; log 4; safe). -/
opaque extraPorts : Nat

/-- `NUM_PORTS`, an integer of at least 1 (00 R7). -/
def numPorts : Nat := extraPorts + 1

/-- `HOST_CODE_BYTE_ORDER`, OPEN (20 R42, D21; log 16; safe). -/
opaque hostCodeByteOrder : ByteOrder

/-- Free value: the `status` line before the first response (log 8; safe). -/
opaque freeStatus : Nat → Status

/-- Free value: a `code_out` no operation defined (93 I6, I13; log 7; safe). -/
opaque freeCodeOut : Nat → Code

/-- Free value: a `ch_out` no operation defined (93 I6, I13; log 7; safe). -/
opaque freeChOut : Nat → Character

/-- Free value: a `success` no operation defined (93 I6, I13; log 7; safe). -/
opaque freeSuccess : Nat → Bool

end Config

end Sys2Proof
end

