-- ==== Sys2Proof/Machine/Operands.lean ====
section
/-! DEFINITION. What the operations read from their operands: the fields and spelling of a packed code
(30_encoding.md R60 to R65), the class and ROM index of a character (40_encoder.md R100 to R102), the
magic index of a code (41_decoder.md R130, R131), and a host's two-byte form of a code
(20_memory.md R42). -/

namespace Sys2Proof.Machine

/-- `N`, the symbol count, bits [2:0] (30 R60). -/
def symbolCount (code : Code) : BitVec 3 := code.extractLsb' 0 3

/-- The count as the number `n` of 30 R62. -/
def symbolTotal (code : Code) : Nat := (symbolCount code).toNat

/-- `code[10:3]`, zero in every ROM code (10 R25, 30 R61). -/
def reservedField (code : Code) : BitVec 8 := code.extractLsb' 3 8

/-- `sym(code, i) = code[15 - i]` for `i` in 0..6; true is a DAH (30 R62). -/
def symbolAt (code : Code) (i : Nat) : Bool := code.getLsbD (15 - i)

/-- A symbol from its bit: 0 = DIT, 1 = DAH (00 R11). -/
def symbolOfBit (bit : Bool) : Symbol := if bit then .dah else .dit

/-- `spell(code)`: the first `n` symbols, the one sent first at the head (30 R65). -/
def spell (code : Code) : List Symbol :=
  (List.range (symbolTotal code)).map fun i => symbolOfBit (symbolAt code i)

/-- The symbol bits of a spelling, symbol `i` of it at bit `15 - i` (30 R65). -/
def packSymbols (i : Nat) (symbols : List Symbol) : Code :=
  match symbols with
  | [] => 0#16
  | .dit :: rest => packSymbols (i + 1) rest
  | .dah :: rest => (1#16 <<< (15 - i)) ||| packSymbols (i + 1) rest

/-- `pack(s)`, for a spelling of length 1..7 only (30 R65). -/
def pack (symbols : List Symbol) : Option Code :=
  if 1 ≤ symbols.length ∧ symbols.length ≤ 7 then
    some (BitVec.ofNat 16 symbols.length ||| packSymbols 0 symbols)
  else none

/-- The character classes of 40 R100. -/
inductive CharacterClass where
  | letter
  | digit
  | other
deriving DecidableEq, Repr

/-- `classify(ch)`: letter, then digit, then other (40 R100). -/
def classify (ch : Character) : CharacterClass :=
  if 0x41 ≤ ch.toNat ∧ ch.toNat ≤ 0x5A then .letter
  else if 0x30 ≤ ch.toNat ∧ ch.toNat ≤ 0x39 then .digit
  else .other

/-- `ch - 0x41` on the 8-bit value, as a `LETTER_ROM` index (40 R101). Used for letters only, where it
lies in 0..25, so the reduction into the index range never acts (log 24; safe). -/
def letterIndex (ch : Character) : Fin 26 := Fin.ofNat 26 (ch - 0x41#8).toNat

/-- `ch - 0x30` on the 8-bit value, as a `DIGIT_ROM` index (40 R102); as `letterIndex`. -/
def digitIndex (ch : Character) : Fin 10 := Fin.ofNat 10 (ch - 0x30#8).toNat

/-- Step 2 of 41 R130: `code[0]*1 + code[1]*2 + code[2]*4`. -/
def magicBase (code : Code) : Nat :=
  (code.getLsbD 0).toNat * 1 + (code.getLsbD 1).toNat * 2 + (code.getLsbD 2).toNat * 4

/-- Step 3 of 41 R130 for the first `n` symbols: add `8 << i` wherever `code[15 - i]` is set. -/
def magicAccumulate (code : Code) (n : Nat) (idx : Nat) : Nat :=
  (List.range n).foldl (fun acc i => if symbolAt code i then acc + (8 <<< i) else acc) idx

/-- `magic_index(code)` as the natural number of 41 R130, 0..1023. -/
def magicSum (code : Code) : Nat := magicAccumulate code (symbolTotal code) (magicBase code)

/-- The magic index as the 10-bit value the hardware holds (41 R130, R131; D18). -/
def magicIndex (code : Code) : MagicIndex := BitVec.ofNat 10 (magicSum code)

/-- Bit `3 + i` of the magic index in the bit form of 41 R131: `code[15-i] AND (i < n)`. -/
def magicSymbolBit (code : Code) (i : Nat) : Bool :=
  symbolAt code i && decide (i < symbolTotal code)

/-- The bit form of the magic index, pure rewiring and masking (41 R131). -/
def magicIndexBits (code : Code) : MagicIndex :=
  BitVec.ofBoolListLE
    [code.getLsbD 0, code.getLsbD 1, code.getLsbD 2,
     magicSymbolBit code 0, magicSymbolBit code 1, magicSymbolBit code 2, magicSymbolBit code 3,
     magicSymbolBit code 4, magicSymbolBit code 5, magicSymbolBit code 6]

/-- The range check of 41 R132: the index addresses `MAGIC_ROM`. -/
def magicInRange (code : Code) : Bool := decide ((magicIndex code).toNat ≤ 255)

/-- A host's two bytes of a packed code, first byte first (20 R42; log 16). -/
def serialiseCode (order : ByteOrder) (code : Code) : BitVec 8 × BitVec 8 :=
  match order with
  | .little => (code.extractLsb' 0 8, code.extractLsb' 8 8)
  | .big => (code.extractLsb' 8 8, code.extractLsb' 0 8)

/-- The packed code a host reads back from two bytes (20 R42; log 16). -/
def deserialiseCode (order : ByteOrder) (bytes : BitVec 8 × BitVec 8) : Code :=
  match order with
  | .little => bytes.2 ++ bytes.1
  | .big => bytes.1 ++ bytes.2

/-- The two bytes a host of this build stores or sends for a packed code, first byte first:
`HOST_CODE_BYTE_ORDER` is OPEN (20 R42, D21; log 16). -/
def hostBytesOf (code : Code) : BitVec 8 × BitVec 8 := serialiseCode Config.hostCodeByteOrder code

/-- The packed code such a host reads back from its two bytes (20 R42, D21; log 16). -/
def hostCodeOf (bytes : BitVec 8 × BitVec 8) : Code :=
  deserialiseCode Config.hostCodeByteOrder bytes

end Sys2Proof.Machine
end

