-- ==== Sys2Proof/Machine/Roms.lean ====
section
/-! DEFINITION. The four constant ROMs: the reads of them (00_scope.md R9, 20_memory.md R40 to R46), the
constraints a build must meet (10_state.md R25, 40_encoder.md R110 to R113, 41_decoder.md R138), the
default tables (40 R110, R111, 41 R139), and this block's build. -/

namespace Sys2Proof

namespace Build

/-- `LETTER_ROM[i]` (40 R101). -/
def readLetter (b : Build) (i : Fin 26) : Code := b.letterRom.get i

/-- `DIGIT_ROM[i]` (40 R102). -/
def readDigit (b : Build) (i : Fin 10) : Code := b.digitRom.get i

/-- `MAGIC_ROM[a]` for an 8-bit address (41 R131, R134). -/
def readMagic (b : Build) (a : BitVec 8) : Character := b.magicRom.get (Fin.ofNat 256 a.toNat)

end Build

/-- The scan of 40 R103: the code of the first entry whose key equals `ch`, over all the entries. -/
def firstKeyed (rom : List PunctEntry) (ch : Character) : Option Code :=
  match rom with
  | [] => none
  | entry :: rest => if entry.key = ch then some entry.code else firstKeyed rest ch

/-- The invariants of 10 R25 on a stored code, with the largest count allowed: count in 1..max and
bits [10:3] zero. -/
def codeStored (max : Nat) (code : Code) : Bool :=
  decide (1 ≤ Machine.symbolTotal code) && decide (Machine.symbolTotal code ≤ max)
    && Machine.reservedField code == 0#8

namespace Build

/-- The character a build's `MAGIC_ROM` holds for a code, `none` where the index is out of range. -/
def magicCharacter (b : Build) (code : Code) : Option Character :=
  if Machine.magicInRange code then
    some (b.readMagic ((Machine.magicIndex code).setWidth 8))
  else none

/-- 10 R25 for `LETTER_ROM` and `DIGIT_ROM`: counts 1..5, reserved bits 0. -/
def directCodesStored (b : Build) : Bool :=
  b.letterRom.toList.all (codeStored 5) && b.digitRom.toList.all (codeStored 5)

/-- The entries of `LETTER_ROM` and `DIGIT_ROM` the source states: 'A' and '0' (40 R110, R111). -/
def sourceCodes (b : Build) : Bool :=
  b.readLetter 0 == 0x4002#16 && b.readDigit 0 == 0xF805#16

/-- 40 R112 constraint 1: the first entry keyed '?' has code 0x3006. -/
def punctQuestion (b : Build) : Bool := firstKeyed b.punctRom 0x3F#8 == some 0x3006#16

/-- 40 R112 constraint 2: entries keyed 'e', 'i', 'u' and 'w' exist. -/
def punctProsigns (b : Build) : Bool :=
  [0x65#8, 0x69#8, 0x75#8, 0x77#8].all fun ch => (firstKeyed b.punctRom ch).isSome

/-- 40 R112 constraint 3: the first entry keyed 'e' has code `ERROR_CODE` (D13). -/
def punctError (b : Build) : Bool := firstKeyed b.punctRom 0x65#8 == some b.errorCode

/-- 40 R112 constraint 4: every code meets 10 R25. -/
def punctCodesStored (b : Build) : Bool := b.punctRom.all fun entry => codeStored 7 entry.code

/-- 40 R112 constraint 5: every key is printable ASCII, 0x20..0x7E (D25). -/
def punctKeysPrintable (b : Build) : Bool :=
  b.punctRom.all fun entry => decide (0x20 ≤ entry.key.toNat) && decide (entry.key.toNat ≤ 0x7E)

/-- 40 R113 constraint 1: `ERROR_CODE` has count 1..7 and bits [10:3] zero. -/
def errorStored (b : Build) : Bool := codeStored 7 b.errorCode

/-- 40 R113 constraint 2 and 41 R138 constraint 4: `MAGIC_ROM[magic_index(ERROR_CODE)] = 'e'`. -/
def errorDecodes (b : Build) : Bool := b.magicCharacter b.errorCode == some 0x65#8

/-- 41 R138 constraint 1: every letter round-trips. -/
def lettersDecode (b : Build) : Bool :=
  (List.range 26).all fun i =>
    b.magicCharacter (b.readLetter (Fin.ofNat 26 i)) == some (0x41#8 + BitVec.ofNat 8 i)

/-- 41 R138 constraint 2: every digit round-trips. -/
def digitsDecode (b : Build) : Bool :=
  (List.range 10).all fun i =>
    b.magicCharacter (b.readDigit (Fin.ofNat 10 i)) == some (0x30#8 + BitVec.ofNat 8 i)

/-- The keys 'i', 'u' and 'w', which need not round-trip (41 R138 constraint 5, R140). -/
def prosignOnly (ch : Character) : Bool := ch == 0x69#8 || ch == 0x75#8 || ch == 0x77#8

/-- 41 R138 constraint 3: every key other than 'i', 'u' and 'w' round-trips through the code of its
first entry. -/
def punctDecode (b : Build) : Bool :=
  b.punctRom.all fun entry =>
    prosignOnly entry.key ||
      (match firstKeyed b.punctRom entry.key with
       | some code => b.magicCharacter code == some entry.key
       | none => false)

/-- `ALIAS_DECODE_i`, `ALIAS_DECODE_u` and `ALIAS_DECODE_w` for the keys 'i', 'u' and 'w': the character
`MAGIC_ROM` holds for the code of the key's first entry, OPEN (41 R140, 93 I8). -/
def aliasDecode (b : Build) (ch : Character) : Option Character :=
  match firstKeyed b.punctRom ch with
  | some code => b.magicCharacter code
  | none => none

/-- The build meets every constraint of 10 R25, 40 R110 to R113 and 41 R138: "A build that breaks them
is not this block" (70 R193). -/
def wf (b : Build) : Bool :=
  b.directCodesStored && b.sourceCodes && b.punctQuestion && b.punctProsigns && b.punctError
    && b.punctCodesStored && b.punctKeysPrintable && b.errorStored && b.errorDecodes
    && b.lettersDecode && b.digitsDecode && b.punctDecode

end Build

namespace Machine

/-- The default `LETTER_ROM`, 'A' to 'Z' (40 R110; log 3). -/
def defaultLetterRom : Vector Code 26 :=
  #v[0x4002#16, 0x8004#16, 0xA004#16, 0x8003#16, 0x0001#16, 0x2004#16, 0xC003#16,
    0x0004#16, 0x0002#16, 0x7004#16, 0xA003#16, 0x4004#16, 0xC002#16, 0x8002#16,
    0xE003#16, 0x6004#16, 0xD004#16, 0x4003#16, 0x0003#16, 0x8001#16, 0x2003#16,
    0x1004#16, 0x6003#16, 0x9004#16, 0xB004#16, 0xC004#16]

/-- The default `DIGIT_ROM`, '0' to '9' (40 R111; log 3). -/
def defaultDigitRom : Vector Code 10 :=
  #v[0xF805#16, 0x7805#16, 0x3805#16, 0x1805#16, 0x0805#16,
    0x0005#16, 0x8005#16, 0xC005#16, 0xE005#16, 0xF005#16]

/-- The 37 entries of `MAGIC_ROM` fixed by the source and the default tables: (magic index,
character) (41 R139). -/
def fixedMagicEntries : List (Nat × Character) :=
  [ (1, 0x45#8), (2, 0x49#8), (3, 0x53#8), (4, 0x48#8), (5, 0x35#8),
    (9, 0x54#8), (10, 0x4E#8), (11, 0x44#8), (12, 0x42#8), (13, 0x36#8),
    (18, 0x41#8), (19, 0x52#8), (20, 0x4C#8), (26, 0x4D#8), (27, 0x47#8),
    (28, 0x5A#8), (29, 0x37#8), (35, 0x55#8), (36, 0x46#8), (43, 0x4B#8),
    (44, 0x43#8), (51, 0x57#8), (52, 0x50#8), (59, 0x4F#8), (61, 0x38#8),
    (68, 0x56#8), (76, 0x58#8), (92, 0x51#8), (102, 0x3F#8), (108, 0x59#8),
    (116, 0x4A#8), (125, 0x39#8), (133, 0x34#8), (197, 0x33#8), (229, 0x32#8),
    (245, 0x31#8), (253, 0x30#8) ]

/-- The character 41 R139 fixes at an index, if it fixes one. -/
def fixedMagic (entries : List (Nat × Character)) (i : Nat) : Option Character :=
  match entries with
  | [] => none
  | entry :: rest => if entry.1 = i then some entry.2 else fixedMagic rest i

/-- The characters `f i, f (i + 1), …`, `count` of them. -/
def charactersFrom (f : Nat → Character) (count i : Nat) : List Character :=
  match count with
  | 0 => []
  | more + 1 => f i :: charactersFrom f more (i + 1)

theorem charactersFrom_length (f : Nat → Character) (count i : Nat) :
    (charactersFrom f count i).length = count := by
  induction count generalizing i with
  | zero => rfl
  | succ more ih => simp [charactersFrom, ih]

/-- The 256-entry table whose entry `i` is `f i`. -/
def magicTable (f : Nat → Character) : Vector Character 256 :=
  ⟨⟨charactersFrom f 256 0⟩, charactersFrom_length f 256 0⟩

/-- A `MAGIC_ROM` with the 37 entries of 41 R139 in their places and another table's elsewhere. -/
def withFixedMagic (rom : Vector Character 256) : Vector Character 256 :=
  magicTable fun i => (fixedMagic fixedMagicEntries i).getD (rom.get (Fin.ofNat 256 i))

/-- The build made of the default letter and digit tables and the OPEN tables `t`; the entries of
`MAGIC_ROM` that R139 fixes are put in place, so that they can be evaluated (log 2). -/
def assembleBuild (t : OpenTables) : Build :=
  { letterRom := defaultLetterRom
    digitRom := defaultDigitRom
    punctRom := t.punctRom
    errorCode := t.errorCode
    magicRom := withFixedMagic t.magicRom }

/-- The test instance T0 of 95_test_vectors.md section 0: NOT the hardware's values. It serves the
tests, and stands in `openTables` where a choice of the opaque constant would be no build of this
block at all (log 2). -/
def testTables : OpenTables :=
  { punctRom :=
      [⟨0x3F#8, 0x3006#16⟩, ⟨0x65#8, 0x0007#16⟩, ⟨0x69#8, 0xA003#16⟩, ⟨0x75#8, 0x1005#16⟩,
       ⟨0x77#8, 0x4005#16⟩, ⟨0x2F#8, 0x9005#16⟩, ⟨0x2F#8, 0x0001#16⟩]
    errorCode := 0x0007#16
    magicRom := withFixedMagic (magicTable fun i =>
      if i = 7 then 0x65#8 else if i = 77 then 0x2F#8 else 0x2A#8) }

/-- The OPEN tables of the block: any tables that meet the constraints. The opaque constant ranges
over all tables; where it meets them it is taken as it is, so what is proved of `openTables` is
proved of every admissible choice (DESIGN CHOICE, log 2; safe). -/
def openTables : OpenTables :=
  if (assembleBuild Config.openTables).wf then Config.openTables else testTables

/-- The build of this block (10 R24, R31). -/
def blockBuild : Build := assembleBuild openTables

end Machine

end Sys2Proof
end

