-- ==== Sys2Proof/Machine/State.lean ====
section
/-! DEFINITION. The state of the machine: the block's constant ROMs, its port sets and what they have
put out, the transaction in flight, and the requests the host has issued (10_state.md R20 to R30,
70_reset_and_hazards.md R190, R198). The block itself stores nothing that changes (10 R20): everything
below but `build` is on its ports or is the host's own record of the run. -/

namespace Sys2Proof.Machine

/-- A response: the four fields of the response port (10 R26). A field the operation does not define
(30 R71) holds a free value (93 I6; log 7). -/
structure Response where
  status  : Status
  codeOut : Code
  chOut   : Character
  success : Bool
deriving DecidableEq, Repr

/-- The response whose every field is free: draw number `d` of the open values (93 I6, I13; logs 7,
8). -/
def Response.free (d : Nat) : Response :=
  { status := Config.freeStatus d
    codeOut := Config.freeCodeOut d
    chOut := Config.freeChOut d
    success := Config.freeSuccess d }

/-- A sink event: kind, character and packed code, in the source's order for each kind (30 R72). -/
inductive SinkEvent where
  /-- `Sink(ENC, ch, code)`. -/
  | enc (ch : Character) (code : Code)
  /-- `Sink(DEC, code, ch)`. -/
  | dec (code : Code) (ch : Character)
deriving DecidableEq, Repr

/-- What a port puts out: a sink event, or the response to an operation (10 R26, R27, 60 R173). -/
inductive Output where
  | sink (event : SinkEvent)
  | response (operation : Instr) (r : Response)
deriving DecidableEq, Repr

/-- A recorded `DECODE_INDEX_OUT_OF_RANGE`: the operand and the computed index (60 R162, R164). -/
structure DecodeFault where
  code : Code
  idx  : MagicIndex
deriving DecidableEq, Repr

/-- A port set (10 R26, R27, R29) with the record of the run at it (70 R198). -/
structure Port where
  /-- What the response port shows: the last response given; free values before the first. -/
  response : Response
  /-- The sink events and responses of the run, oldest first. -/
  outputs  : List Output
  /-- The faults recorded, oldest first. -/
  faults   : List DecodeFault
deriving DecidableEq, Repr

/-- A port just after reset: nothing pending, the response lines unspecified (10 R30; log 8). -/
def Port.reset (d : Nat) : Port := { response := Response.free d, outputs := [], faults := [] }

/-- `count` ports just after reset, each with a draw of its own from `d` on. -/
def resetPorts (count d : Nat) : List Port :=
  match count with
  | 0 => []
  | more + 1 => Port.reset d :: resetPorts more (d + 1)

/-- The machine's state. -/
structure State where
  /-- The four ROMs and `ERROR_CODE`: constant, no step changes them (10 R24, R31; log 1). -/
  build    : Build
  /-- The port sets; their number is `NUM_PORTS` (10 R29). -/
  ports    : List Port
  /-- The requests not yet begun, in the order in which their transactions take place; a port's
  request program (70 R198) is the part of it on that port. Any interleaving of the ports' programs
  can stand here (20 R50; log 9). -/
  requests : List Request
  /-- The port of the transaction in flight, `none` between transactions (10 R30; log 11). -/
  inFlight : Option Nat
  /-- How many free values have been drawn: the model's own counter (log 7). -/
  draws    : Nat
deriving DecidableEq, Repr

/-- The faults that stop the machine. The spec's one fault, `DECODE_INDEX_OUT_OF_RANGE`, is not among
them: it ends its own transaction and nothing else (60 R162, R166; log 5). -/
inductive Fault where
  /-- The transaction is on a port the block does not have (10 R29 gives it `NUM_PORTS` ports). Raised
  by the completion of any operation (`finish`); safe: the spec describes no such transaction, and
  `State.inv` rules it out. Log 12. -/
  | noSuchPort (port : Nat)
  /-- An operation was given to `exec` while no transaction is in flight. Raised by the completion of
  any operation (`finish`), never by `step`, which always puts one in flight; safe. Log 11. -/
  | noTransaction
deriving DecidableEq, Repr

/-- The reasons a request has no meaning. -/
inductive Refusal where
  /-- An instruction without a meaning in this model. Raised by no arm of `exec`; safe. -/
  | notModelled (mnemonic : String)
  /-- `RESERVED_OPERAND`: a character request with a nonzero reserved byte, recording the request word
  (30 R70, 60 R163, R164; D4). Raised by `step`; safe: nothing can be proved of a run that holds one.
  Log 6. -/
  | reservedOperand (word : RequestWord)
deriving DecidableEq, Repr

/-- The machine right after reset (10 R30, 70 R190): the ROMs hold their build-time contents, no
transaction is in flight, no sink event and no response is pending, and the host has issued no request
(log 9). -/
def State.reset : State :=
  { build := blockBuild
    ports := resetPorts Config.numPorts 0
    requests := []
    inFlight := none
    draws := Config.numPorts }

end Sys2Proof.Machine
end

