-- ==== Sys2Proof/Machine/Flags.lean ====
section
/-! DEFINITION. The response fields each operation defines (30_encoding.md R71, 10_state.md R26). The
block has no flags or condition codes (10 R22); the success indicator and the status are outputs of
each transaction. Every constructor below starts from free values (draw `d`) and sets the defined
fields only (93 I6; log 7). -/

namespace Sys2Proof.Machine

/-- `respond(status = OK, code_out = code)`: the response of `char_to_code` (30 R71, 40 R105). -/
def codeResponse (d : Nat) (code : Code) : Response :=
  { Response.free d with status := .ok, codeOut := code }

/-- `respond(status = OK, ch_out = ch)`: the response of an in-range `code_to_char` (30 R71, 41
R134). -/
def charResponse (d : Nat) (ch : Character) : Response :=
  { Response.free d with status := .ok, chOut := ch }

/-- `respond(status = OK, success = success)`: the response of `encode` and of an in-range `decode`
(30 R71, 40 R106, 41 R135). -/
def successResponse (d : Nat) (success : Bool) : Response :=
  { Response.free d with status := .ok, success := success }

/-- The response of a faulting transaction: `status = FAULT`, nothing else defined (30 R71, 60
R162). -/
def faultResponse (d : Nat) : Response := { Response.free d with status := .fault }

end Sys2Proof.Machine
end

