-- ==== Sys2Proof/Machine/Ops.lean ====
section
/-! DEFINITION. The shared operations: the encoder's lookup (40_encoder.md R103, R104), emitting a sink
event, responding, raising the decode fault (00_scope.md R9, 60_exceptions.md R162), taking the next
request, and reset (70_reset_and_hazards.md R190 to R192). -/

namespace Sys2Proof.Machine

/-- The encoder's answer: a code, and whether a table entry supplied it (40 R104). -/
structure Mapping where
  code  : Code
  found : Bool
deriving DecidableEq, Repr

/-- `scan(ch)`: the first matching entry's code, or `ERROR_CODE` with `found = 0` (40 R103). -/
def scan (b : Build) (ch : Character) : Mapping :=
  match firstKeyed b.punctRom ch with
  | some code => { code := code, found := true }
  | none => { code := b.errorCode, found := false }

/-- `lookup(ch)`: the class's ROM through the output mux (40 R104). -/
def lookup (b : Build) (ch : Character) : Mapping :=
  match classify ch with
  | .letter => { code := b.readLetter (letterIndex ch), found := true }
  | .digit => { code := b.readDigit (digitIndex ch), found := true }
  | .other => scan b ch

/-- `MAGIC_ROM[idx[7:0]]` for the magic index of a code (41 R134); used in range only. -/
def magicLookup (b : Build) (code : Code) : Character :=
  b.readMagic ((magicIndex code).setWidth 8)

/-- A port whose sink stream has received an event (10 R27). -/
def Port.emit (event : SinkEvent) (port : Port) : Port :=
  { port with outputs := port.outputs ++ [.sink event] }

/-- `emit Sink(…)`: append an event to the stream of the port whose transaction is in flight (00 R9,
10 R27). -/
def emit (event : SinkEvent) (s : State) : State :=
  match s.inFlight with
  | none => s
  | some p =>
    match s.ports[p]? with
    | none => s
    | some port =>
      { s with ports := s.ports.set p (port.emit event) }

/-- Complete the transaction in flight: update its port, leave nothing in flight, and advance the
counter of free values. It stops by name where no transaction is in flight or its port does not exist
(logs 11, 12). -/
def finish (update : Port → Port) (s : State) : Host.Outcome State Fault Refusal :=
  match s.inFlight with
  | none => .fault .noTransaction
  | some p =>
    match s.ports[p]? with
    | none => .fault (.noSuchPort p)
    | some port =>
      .next { s with ports := s.ports.set p (update port), inFlight := none, draws := s.draws + 1 }

/-- A port that has given a response (10 R26). -/
def Port.respond (operation : Instr) (r : Response) (port : Port) : Port :=
  { port with response := r, outputs := port.outputs ++ [.response operation r] }

/-- A port at which a decode fault is recorded for the run (60 R162). -/
def Port.recordFault (code : Code) (port : Port) : Port :=
  { port with faults := port.faults ++ [{ code := code, idx := magicIndex code }] }

/-- `respond(fields)`: the transaction's response, which ends it (00 R9, 10 R26). -/
def respond (operation : Instr) (r : Response) (s : State) : Host.Outcome State Fault Refusal :=
  finish (Port.respond operation r) s

/-- `raise Fault(DECODE_INDEX_OUT_OF_RANGE, {code, idx})`: the transaction ends with a FAULT response
and no sink event, the fault is recorded, and nothing else happens: the machine goes on (60 R162,
R166, R167; log 5). -/
def raiseDecodeFault (operation : Instr) (code : Code) (s : State) :
    Host.Outcome State Fault Refusal :=
  finish (fun port => (port.recordFault code).respond operation (faultResponse s.draws)) s

/-- What the machine finds when it takes its next request. -/
inductive Fetched where
  /-- The host has no request waiting. -/
  | idle
  /-- A request that decodes: the instruction, and the state with the request taken and its
  transaction in flight. -/
  | begun (i : Instr) (s : State)
  /-- A reserved request word (30 R70). -/
  | reserved (word : RequestWord)

/-- Take the next request and decode it (10 R21, 30 R67 to R70; 60 R165: the refusal is decided from
the word alone). -/
def fetchRequest (s : State) : Fetched :=
  match s.requests with
  | [] => .idle
  | r :: rest =>
    match decodeRequest r.word with
    | .instr i => .begun i { s with requests := rest, inFlight := some r.port }
    | .rejected .reservedOperand => .reserved r.word

/-- Issue a request ahead of those waiting. -/
def issueFirst (r : Request) (s : State) : State := { s with requests := r :: s.requests }

/-- The block is reset: the ROMs are unchanged, transactions in flight, sink events and responses are
cleared, and each response line is unspecified again (10 R30, 70 R190, R191; D20). What the host has
still to issue stays the host's (log 14). -/
def applyReset (s : State) : State :=
  { s with
    ports := resetPorts s.ports.length s.draws
    inFlight := none
    draws := s.draws + s.ports.length }

end Sys2Proof.Machine
end

