-- ==== Sys2Proof/Machine/Decoder.lean ====
section
/-! DEFINITION. The decoder's operations (41_decoder.md section 2). -/

namespace Sys2Proof.Machine

/-- `code_to_char`: respond with the character at the magic index, or raise the fault where the index
is above 255; no sink event (41 R134). -/
def execCodeToChar (code : Code) (s : State) : Host.Outcome State Fault Refusal :=
  if magicInRange code then
    respond (.codeToChar code) (charResponse s.draws (magicLookup s.build code)) s
  else raiseDecodeFault (.codeToChar code) code s

/-- `decode`: deliver `(code, ch)` to the sink, then respond with `success = 1`, or raise the fault
where the index is above 255, with no sink event (41 R135). -/
def execDecode (code : Code) (s : State) : Host.Outcome State Fault Refusal :=
  if magicInRange code then
    respond (.decode code) (successResponse s.draws true)
      (emit (.dec code (magicLookup s.build code)) s)
  else raiseDecodeFault (.decode code) code s

end Sys2Proof.Machine
end

