-- ==== Sys2Proof/Machine/Encoder.lean ====
section
/-! DEFINITION. The encoder's operations (40_encoder.md section 2). -/

namespace Sys2Proof.Machine

/-- `char_to_code`: respond with the looked-up code; no sink event (40 R105). -/
def execCharToCode (ch : Character) (s : State) : Host.Outcome State Fault Refusal :=
  respond (.charToCode ch) (codeResponse s.draws (lookup s.build ch).code) s

/-- `encode`: deliver `(ch, code)` to the sink in every case, then respond with `success = found`
(40 R106). -/
def execEncode (ch : Character) (s : State) : Host.Outcome State Fault Refusal :=
  respond (.encode ch) (successResponse s.draws (lookup s.build ch).found)
    (emit (.enc ch (lookup s.build ch).code) s)

end Sys2Proof.Machine
end

