-- ==== Sys2Proof/Machine/Dispatch.lean ====
section
/-! DEFINITION. One arm per operation of the opcode table (00_scope.md R2). -/

namespace Sys2Proof.Machine

def exec (i : Instr) (s : State) : Host.Outcome State Fault Refusal :=
  match i with
  | .charToCode ch => Sys2Proof.Machine.execCharToCode ch s
  | .encode ch => Sys2Proof.Machine.execEncode ch s
  | .codeToChar code => Sys2Proof.Machine.execCodeToChar code s
  | .decode code => Sys2Proof.Machine.execDecode code s

end Sys2Proof.Machine
end

