-- ==== Sys2Proof/Machine/Step.lean ====
section
/-! DEFINITION. One step of the machine: one whole transaction of the next request's port (10_state.md
R21, 70_reset_and_hazards.md R197; D2). -/

namespace Sys2Proof.Machine

/-- One transaction. With no request waiting nothing happens (log 10); a reserved request word is
refused (60 R163; log 6). -/
def step (s : State) : Host.Outcome State Fault Refusal :=
  match fetchRequest s with
  | .idle => .next s
  | .begun i t => exec i t
  | .reserved word => .refused (.reservedOperand word)

/-- The state with the request of an opcode-table word issued on port 0 ahead of all others, so that
the very next step runs it; a number that is no 18-bit request word is not issued (logs 13, 18). -/
def State.withFetchWord (s : State) (nbits w : Nat) : State :=
  match requestWordOf nbits w with
  | none => s
  | some word => issueFirst { port := 0, word := word } s

end Sys2Proof.Machine
end

