-- ==== Sys2Proof/Machine/Assembler.lean ====
section
/-! DEFINITION. The assembler syntax of a request line (30_encoding.md R75, R76; D24). Notation only: no
step of the machine reads it. A line is a list of characters. -/

namespace Sys2Proof.Machine.Assembler

/-- The apostrophe around a character literal. -/
def apostrophe : Char := Char.ofNat 39

/-- The double quote around a spelling literal. -/
def quoteMark : Char := Char.ofNat 34

/-- The backslash, which no character literal holds. -/
def backslash : Char := Char.ofNat 92

/-- The value of a hexadecimal digit, in either case (log 17). -/
def hexDigit (c : Char) : Option Nat :=
  if 48 ≤ c.toNat ∧ c.toNat ≤ 57 then some (c.toNat - 48)
  else if 65 ≤ c.toNat ∧ c.toNat ≤ 70 then some (c.toNat - 55)
  else if 97 ≤ c.toNat ∧ c.toNat ≤ 102 then some (c.toNat - 87)
  else none

/-- The value of a run of hexadecimal digits read after `acc`. -/
def hexNumber (acc : Nat) (cs : List Char) : Option Nat :=
  match cs with
  | [] => some acc
  | c :: rest =>
    match hexDigit c with
    | none => none
    | some d => hexNumber (16 * acc + d) rest

/-- Exactly `count` hexadecimal digits. -/
def hexOfLength (count : Nat) (cs : List Char) : Option Nat :=
  if cs.length = count then hexNumber 0 cs else none

/-- A character that may stand between apostrophes: printable ASCII other than the apostrophe and the
backslash (30 R75). -/
def quotable (c : Char) : Bool :=
  decide (0x20 ≤ c.toNat) && decide (c.toNat ≤ 0x7E) && c != apostrophe && c != backslash

/-- `<ch>`: a quoted character or `0x` and 2 hexadecimal digits (30 R75). -/
def parseCharacter (cs : List Char) : Option Character :=
  match cs with
  | '0' :: 'x' :: digits => (hexOfLength 2 digits).map (BitVec.ofNat 8)
  | [a, c, z] =>
    if a = apostrophe ∧ z = apostrophe ∧ quotable c = true then some (BitVec.ofNat 8 c.toNat)
    else none
  | _ => none

/-- The symbols of a spelling literal, up to the double quote that ends the line. -/
def parseSpelling (cs : List Char) : Option (List Symbol) :=
  match cs with
  | [] => none
  | [c] => if c = quoteMark then some [] else none
  | '.' :: rest => (parseSpelling rest).map (Symbol.dit :: ·)
  | '-' :: rest => (parseSpelling rest).map (Symbol.dah :: ·)
  | _ => none

/-- `<code>`: `0x` and 4 hexadecimal digits, or `m` and a quoted spelling of 1 to 7 symbols, which
denotes `pack` of it (30 R75, R76). -/
def parseCode (cs : List Char) : Option Code :=
  match cs with
  | '0' :: 'x' :: digits => (hexOfLength 4 digits).map (BitVec.ofNat 16)
  | 'm' :: q :: rest =>
    if q = quoteMark then
      match parseSpelling rest with
      | some symbols => pack symbols
      | none => none
    else none
  | _ => none

/-- The mnemonic of each operation, its name in the source (30 R68, R75). -/
def charToCodeName : List Char := ['c', 'h', 'a', 'r', '_', 't', 'o', '_', 'c', 'o', 'd', 'e']
/-- The mnemonic `encode`. -/
def encodeName : List Char := ['e', 'n', 'c', 'o', 'd', 'e']
/-- The mnemonic `code_to_char`. -/
def codeToCharName : List Char := ['c', 'o', 'd', 'e', '_', 't', 'o', '_', 'c', 'h', 'a', 'r']
/-- The mnemonic `decode`. -/
def decodeName : List Char := ['d', 'e', 'c', 'o', 'd', 'e']

/-- The characters of a line up to its first space. -/
def firstWord (cs : List Char) : List Char := cs.takeWhile fun c => c != ' '

/-- What follows the first word and the spaces after it. -/
def afterFirstWord (cs : List Char) : List Char :=
  (cs.dropWhile fun c => c != ' ').dropWhile fun c => c == ' '

/-- The operation a line names: a mnemonic, spaces, an operand of the operation's kind (30 R75;
log 17). -/
def parseLine (line : List Char) : Option Instr :=
  if firstWord line = charToCodeName then
    (parseCharacter (afterFirstWord line)).map Instr.charToCode
  else if firstWord line = encodeName then
    (parseCharacter (afterFirstWord line)).map Instr.encode
  else if firstWord line = codeToCharName then
    (parseCode (afterFirstWord line)).map Instr.codeToChar
  else if firstWord line = decodeName then
    (parseCode (afterFirstWord line)).map Instr.decode
  else none

/-- A line's request word, `OP` and `OPERAND` concatenated (30 R75). -/
def assemble (line : List Char) : Option RequestWord := (parseLine line).map encodeRequest

/-- The digit that stands for a number below 16. -/
def hexDigitOf (n : Nat) : Char := if n < 10 then Char.ofNat (48 + n) else Char.ofNat (55 + n)

/-- The last `count` hexadecimal digits of a number. -/
def hexText (count n : Nat) : List Char :=
  match count with
  | 0 => []
  | more + 1 => hexText more (n / 16) ++ [hexDigitOf (n % 16)]

/-- A line for an operation, its operand in hexadecimal (30 R75). -/
def lineOf (i : Instr) : List Char :=
  match i with
  | .charToCode ch => charToCodeName ++ ' ' :: '0' :: 'x' :: hexText 2 ch.toNat
  | .encode ch => encodeName ++ ' ' :: '0' :: 'x' :: hexText 2 ch.toNat
  | .codeToChar code => codeToCharName ++ ' ' :: '0' :: 'x' :: hexText 4 code.toNat
  | .decode code => decodeName ++ ' ' :: '0' :: 'x' :: hexText 4 code.toNat

end Sys2Proof.Machine.Assembler
end

