-- ==== Sys2Proof/Safety.lean ====
section
/-! DEFINITION. What claims are stated in: the observation of a run (70_reset_and_hazards.md R198), the
observation the rules give each operation (30_encoding.md R71), and the invariant of the machine. -/

namespace Sys2Proof.Machine

/-- A run of `k` steps, which stops at the first fault or refusal (70 R198; 60 R163: a refusal is kept
for the whole run). -/
def runFor (k : Nat) (s : State) : Host.Outcome State Fault Refusal :=
  match k with
  | 0 => .next s
  | more + 1 =>
    match step s with
    | .next t => runFor more t
    | .fault reason => .fault reason
    | .refused reason => .refused reason

/-- A transaction as R198 observes it: its sink event if any, and the response through the fields
its operation defines (30 R71); a field the operation does not define is not seen. -/
structure Observed where
  event   : Option SinkEvent
  status  : Status
  codeOut : Option Code
  chOut   : Option Character
  success : Option Bool
deriving DecidableEq, Repr

/-- The defined fields of a response to an operation (30 R71). -/
def observeResponse (event : Option SinkEvent) (operation : Instr) (r : Response) : Observed :=
  match r.status with
  | .fault => { event := event, status := .fault, codeOut := none, chOut := none, success := none }
  | .ok =>
    match operation with
    | .charToCode _ =>
      { event := event, status := .ok, codeOut := some r.codeOut, chOut := none, success := none }
    | .encode _ =>
      { event := event, status := .ok, codeOut := none, chOut := none, success := some r.success }
    | .codeToChar _ =>
      { event := event, status := .ok, codeOut := none, chOut := some r.chOut, success := none }
    | .decode _ =>
      { event := event, status := .ok, codeOut := none, chOut := none, success := some r.success }

/-- The (sink event, response) pairs of a list of outputs, with an event that waits for its
response. -/
def observeOutputs (waiting : Option SinkEvent) (outputs : List Output) : List Observed :=
  match outputs with
  | [] => []
  | .sink event :: rest => observeOutputs (some event) rest
  | .response operation r :: rest =>
    observeResponse waiting operation r :: observeOutputs none rest

/-- The sink event stream of a port (10 R27). -/
def Port.sinkStream (port : Port) : List SinkEvent :=
  port.outputs.filterMap fun output =>
    match output with
    | .sink event => some event
    | .response _ _ => none

/-- The observation of a run at a port (70 R198). -/
def State.observation (s : State) (p : Nat) : List Observed :=
  match s.ports[p]? with
  | some port => observeOutputs none port.outputs
  | none => []

/-- The faults recorded at a port (70 R198). -/
def State.recordedFaults (s : State) (p : Nat) : List DecodeFault :=
  match s.ports[p]? with
  | some port => port.faults
  | none => []

/-- The request program a port has still to run: the words of its requests, in order (70 R198). -/
def State.program (s : State) (p : Nat) : List RequestWord :=
  (s.requests.filter fun r => r.port == p).map Request.word

/-- The observation the rules give an operation: 30 R71, 40 R105, R106, 41 R134, R135, 60 R162. -/
def expectedObservation (b : Build) (i : Instr) : Observed :=
  match i with
  | .charToCode ch =>
    { event := none, status := .ok, codeOut := some (lookup b ch).code, chOut := none,
      success := none }
  | .encode ch =>
    { event := some (.enc ch (lookup b ch).code), status := .ok, codeOut := none, chOut := none,
      success := some (lookup b ch).found }
  | .codeToChar code =>
    if magicInRange code then
      { event := none, status := .ok, codeOut := none, chOut := some (magicLookup b code),
        success := none }
    else { event := none, status := .fault, codeOut := none, chOut := none, success := none }
  | .decode code =>
    if magicInRange code then
      { event := some (.dec code (magicLookup b code)), status := .ok, codeOut := none,
        chOut := none, success := some true }
    else { event := none, status := .fault, codeOut := none, chOut := none, success := none }

/-- The faults an operation records: `(code, idx)` exactly when the index is above 255 (60 R162). -/
def expectedFaults (i : Instr) : List DecodeFault :=
  match i with
  | .charToCode _ => []
  | .encode _ => []
  | .codeToChar code =>
    if magicInRange code then [] else [{ code := code, idx := magicIndex code }]
  | .decode code =>
    if magicInRange code then [] else [{ code := code, idx := magicIndex code }]

/-- The operations of a request program; a refused word gives none. -/
def programOperations (program : List RequestWord) : List Instr :=
  program.filterMap fun word =>
    match decodeRequest word with
    | .instr i => some i
    | .rejected _ => none

/-- Every request waiting has a legal word (30 R73): the run will not be refused. -/
def State.requestsLegal (s : State) : Bool := s.requests.all fun r => requestLegal r.word

/-- Every request waiting is on a port of the block. -/
def State.requestsOnPorts (s : State) : Bool :=
  s.requests.all fun r => decide (r.port < s.ports.length)

/-- Each transaction put out has the observation its operation has by the rules, and no sink event
waits for a response: an event of the stream is at once followed by its own response (10 R27, 30 R71). -/
def outputsConform (b : Build) (outputs : List Output) : Bool :=
  match outputs with
  | [] => true
  | .response operation r :: rest =>
    observeResponse none operation r == expectedObservation b operation && outputsConform b rest
  | .sink event :: .response operation r :: rest =>
    observeResponse (some event) operation r == expectedObservation b operation
      && outputsConform b rest
  | .sink _ :: .sink _ :: _ => false
  | [.sink _] => false

/-- The faults of a list of outputs, by the operations answered (60 R162). -/
def outputFaults (outputs : List Output) : List DecodeFault :=
  match outputs with
  | [] => []
  | .sink _ :: rest => outputFaults rest
  | .response operation _ :: rest => expectedFaults operation ++ outputFaults rest

/-- The last response among outputs, or `r` where there is none. -/
def lastResponse (r : Response) (outputs : List Output) : Response :=
  match outputs with
  | [] => r
  | .sink _ :: rest => lastResponse r rest
  | .response _ r' :: rest => lastResponse r' rest

/-- What holds of a port at every moment between transactions: its outputs conform, its recorded
faults are those of the operations answered, and its response lines show the last response
(the model's choice, log 8). -/
def Port.conforms (b : Build) (port : Port) : Bool :=
  outputsConform b port.outputs && port.faults == outputFaults port.outputs
    && port.response == lastResponse port.response port.outputs

/-- The invariant between transactions: the build meets the spec's constraints (70 R193), at least one
port exists (10 R29), every port conforms, requests are on ports that exist, and no transaction is in
flight (10 R30, 70 R197). -/
def State.inv (s : State) : Bool :=
  s.build.wf && decide (1 ≤ s.ports.length) && s.ports.all (Port.conforms s.build)
    && s.requestsOnPorts && s.inFlight == none

/-- The state after the transaction in flight on port `p` has completed, the port being `port` now:
nothing is in flight and one draw of free values was taken; the ROMs, the requests and every other
port are as before. -/
def State.served (s : State) (p : Nat) (port : Port) : State :=
  { s with ports := s.ports.set p port, inFlight := none, draws := s.draws + 1 }

/-- A transaction is in flight on a port that exists: when an operation is performed. -/
def State.serving (s : State) (p : Nat) : Bool :=
  s.inFlight == some p && decide (p < s.ports.length)

/-- The letter and digit tables are the default ones of 40 R110 and R111. -/
def usesDefaultTables (b : Build) : Bool :=
  b.letterRom == defaultLetterRom && b.digitRom == defaultDigitRom

/-- A run with the refused request words marked (60 R163: "the run is marked refused, and the mark is
kept for the whole run"; the run is marked where the list is not empty). -/
structure MarkedRun where
  state   : State
  refused : List RequestWord
deriving DecidableEq, Repr

/-- A run of `k` steps that goes on after a refused request, as the programs of 95 (P5) and 70 R198 show
it: the request is taken away and its word marked; nothing else happens. `none` where a step stops with
a fault. -/
def runMarked (k : Nat) (refused : List RequestWord) (s : State) : Option MarkedRun :=
  match k with
  | 0 => some { state := s, refused := refused }
  | more + 1 =>
    match step s with
    | .next t => runMarked more refused t
    | .fault _ => none
    | .refused _ =>
      match s.requests with
      | [] => none
      | r :: rest => runMarked more (refused ++ [r.word]) { s with requests := rest }

/-- A request of operation `i`, issued next, completes as the rules say: a step answers a next state in
which its port has put out, after all it had put out before, what is observed as the operation's
observation, and has recorded the operation's faults (30 R71, 60 R162). -/
def State.completes (s : State) (r : Request) (i : Instr) : Prop :=
  ∃ (t : State) (port port' : Port) (added : List Output),
    step (issueFirst r s) = .next t ∧ s.ports[r.port]? = some port ∧
    t.ports[r.port]? = some port' ∧ port'.outputs = port.outputs ++ added ∧
    observeOutputs none added = [expectedObservation s.build i] ∧
    port'.faults = port.faults ++ expectedFaults i

/-- The run has ended: every request has completed (70 R198). -/
def State.runEnded (s : State) : Bool := s.requests == []

end Sys2Proof.Machine
end

