-- ==== Sys2Proof/Certificates/Slice0/Obligations.lean ====
section
/-! DEFINITION. The statements about the model, from the spec's numbered rules. -/

open Sys2Proof Sys2Proof.Machine

/-! ### Requests: step, decoder, encoder, assembler -/

/-- 10 section 1, 30 section 3; the list of requests is the model's (log 9): a step takes the next request and performs the operation it decodes to, with that
request removed and its transaction in flight on its port. -/
def Obligations.StepRunsDecodedRequest : Prop :=
  ∀ (s : State) (r : Request) (rest : List Request) (i : Instr),
    s.requests = r :: rest → decodeRequest r.word = .instr i →
      step s = exec i { s with requests := rest, inFlight := some r.port }

/-- The model's choice (log 10): with no request waiting, a step changes nothing. -/
def Obligations.StepWithoutRequestIsIdle : Prop :=
  ∀ s : State, s.requests = [] → step s = .next s

/-- 30 R70: a character request with a nonzero reserved byte is refused, whatever the state: no response
and no sink event is given. -/
def Obligations.ReservedOperandIsRefused : Prop :=
  ∀ (s : State) (r : Request) (rest : List Request),
    s.requests = r :: rest →
    (r.word.extractLsb' 16 2 = 0#2 ∨ r.word.extractLsb' 16 2 = 1#2) →
    r.word.extractLsb' 8 8 ≠ 0#8 →
      step s = .refused (.reservedOperand r.word)

/-- The decoder reads back every instruction from its request word, with every operand value. -/
def Obligations.DecodeReadsBackEncodedInstruction : Prop :=
  ∀ i : Instr, i.wellFormed = true → decodeRequest (encodeRequest i) = .instr i

/-- A request word that decodes is the word of the instruction read from it: no bit is dropped. -/
def Obligations.EncodedDecodeIsTheRequestWord : Prop :=
  ∀ (w : RequestWord) (i : Instr), decodeRequest w = .instr i → encodeRequest i = w

/-- 30 R73: the legal request words decode, and exactly the reserved ones are rejected; the reserved bits
of a code are ignored: a code's index is that of any code with its count and the symbols that reaches. -/
def Obligations.RequestSpaceIsLegalOrReserved : Prop :=
  (∀ w : RequestWord,
    ((∃ i, decodeRequest w = .instr i) ↔
      ((w.extractLsb' 16 2 = 2#2 ∨ w.extractLsb' 16 2 = 3#2) ∨
        ((w.extractLsb' 16 2 = 0#2 ∨ w.extractLsb' 16 2 = 1#2) ∧ w.extractLsb' 8 8 = 0#8))) ∧
    (decodeRequest w = .rejected .reservedOperand ↔
      ((w.extractLsb' 16 2 = 0#2 ∨ w.extractLsb' 16 2 = 1#2) ∧ w.extractLsb' 8 8 ≠ 0#8))) ∧
  (∀ code code' : Code,
    code.extractLsb' 11 5 = code'.extractLsb' 11 5 → symbolTotal code = symbolTotal code' →
    (6 ≤ symbolTotal code → code.getLsbD 10 = code'.getLsbD 10) →
    (symbolTotal code = 7 → code.getLsbD 9 = code'.getLsbD 9) →
      magicIndex code = magicIndex code')

/-- 30 R68, R69: the operation each `OP` selects, and the operand it takes, unchanged; a character
operation's high operand byte must be 0. -/
def Obligations.OperationAndOperandFields : Prop :=
  ∀ w : RequestWord,
    (w.extractLsb' 16 2 = 0#2 →
      decodeRequest w =
        if w.extractLsb' 8 8 = 0#8 then .instr (.charToCode (w.extractLsb' 0 8))
        else .rejected .reservedOperand) ∧
    (w.extractLsb' 16 2 = 1#2 →
      decodeRequest w =
        if w.extractLsb' 8 8 = 0#8 then .instr (.encode (w.extractLsb' 0 8))
        else .rejected .reservedOperand) ∧
    (w.extractLsb' 16 2 = 2#2 → decodeRequest w = .instr (.codeToChar (w.extractLsb' 0 16))) ∧
    (w.extractLsb' 16 2 = 3#2 → decodeRequest w = .instr (.decode (w.extractLsb' 0 16)))

/-- Words of 95_test_vectors.md (E1, E19, K1, K27, X1, X2, X4) decode as they are listed. -/
def Obligations.ListedWordsDecode : Prop :=
  decodeRequest 0x00041#18 = .instr (.charToCode 0x41#8) ∧
  decodeRequest 0x10053#18 = .instr (.encode 0x53#8) ∧
  decodeRequest 0x24002#18 = .instr (.codeToChar 0x4002#16) ∧
  decodeRequest 0x3F805#18 = .instr (.decode 0xF805#16) ∧
  decodeRequest 0x00141#18 = .rejected .reservedOperand ∧
  decodeRequest 0x1FF41#18 = .rejected .reservedOperand ∧
  decodeRequest 0x10100#18 = .rejected .reservedOperand

/-- An opcode-table word placed by `withFetchWord` is the very next thing a step does: its instruction
on port 0, or the refusal; a number of more than 18 bits is no request (log 18). -/
def Obligations.PlacedTableWordRunsNext : Prop :=
  ∀ (s : State) (nbits w : Nat),
    (∀ i, decodeTableWord nbits w = some i →
      step (s.withFetchWord nbits w) = exec i { s with inFlight := some 0 }) ∧
    (∀ word, requestWordOf nbits w = some word → decodeTableWord nbits w = none →
      step (s.withFetchWord nbits w) = .refused (.reservedOperand word)) ∧
    (2 ^ 18 ≤ w % 2 ^ nbits → decodeTableWord nbits w = none ∧ s.withFetchWord nbits w = s)

/-- 30 section 6 (R75; the model reads the syntax as log 17 says): the line written for an operation assembles to its request word, no line assembles to a
reserved word, and the two lines of the rule's example give its words. -/
def Obligations.AssemblerLineGivesRequestWord : Prop :=
  (∀ i : Instr, Assembler.assemble (Assembler.lineOf i) = some (encodeRequest i)) ∧
  (∀ line w, Assembler.assemble line = some w → requestLegal w = true) ∧
  Assembler.assemble
    (Assembler.encodeName ++ [' ', Assembler.apostrophe, 'S', Assembler.apostrophe])
      = some 0x10053#18 ∧
  Assembler.assemble
    (Assembler.decodeName ++ [' ', 'm', Assembler.quoteMark, '.', '-', Assembler.quoteMark])
      = some 0x34002#18

/-- 30 section 6 (R76; log 17): a spelling literal assembles to the single value `pack` of it. -/
def Obligations.SpellingLiteralIsPacked : Prop :=
  ∀ symbols : List Symbol,
    Assembler.assemble
      (Assembler.codeToCharName ++ ' ' :: 'm' :: Assembler.quoteMark ::
        (symbols.map (fun symbol => if symbol = .dit then '.' else '-') ++ [Assembler.quoteMark]))
    = (pack symbols).map fun code => encodeRequest (.codeToChar code)

/-! ### The packed code -/

/-- 30 section 1 (R65, marked derived there): packing a spelling of 1 to 7 symbols puts symbol `i` at bit `15 - i` with DAH = 1, the
length in the count and 0 elsewhere; spelling it out gives the spelling back; no other length packs. -/
def Obligations.SpellingOfPackedCode : Prop :=
  ∀ symbols : List Symbol,
    (1 ≤ symbols.length → symbols.length ≤ 7 →
      ∃ code, pack symbols = some code ∧ spell code = symbols ∧
        symbolTotal code = symbols.length ∧
        (∀ i, i < 13 → code.getLsbD (15 - i) = decide (symbols[i]? = some .dah))) ∧
    (¬ (1 ≤ symbols.length ∧ symbols.length ≤ 7) → pack symbols = none)

/-- 30 section 1 (R64, marked derived there): a code with the reserved bits zero has DIT for its symbols 5 and 6, so a spelling with a
DAH there is the spelling of no code a well-formed build's encoder tables hold. -/
def Obligations.RomCodesEndInDits : Prop :=
  ∀ (b : Build) (code : Code), b.wf = true →
    (code ∈ b.letterRom.toList ∨ code ∈ b.digitRom.toList ∨
      (∃ entry ∈ b.punctRom, entry.code = code) ∨ code = b.errorCode) →
    ∀ i, 5 ≤ i → (spell code)[i]? ≠ some .dah

/-- 20 section 2 (the byte order is OPEN; log 16): a host reads back the code it stored, in either byte order; the two orders swap the
bytes. -/
def Obligations.SerialisedCodeReadsBack : Prop :=
  ∀ code : Code,
    (∀ order, deserialiseCode order (serialiseCode order code) = code) ∧
    hostCodeOf (hostBytesOf code) = code ∧
    serialiseCode .little code = (serialiseCode .big code).swap

/-! ### The magic index -/

/-- 41 R130: the magic index is the count, summed from bits 0 to 2, plus `8 << i` for every `i < n` whose
bit `15 - i` is set; a natural number of at most 1023. -/
def Obligations.MagicIndexIsTheSum : Prop :=
  ∀ code : Code,
    (magicIndex code).toNat =
      (code.getLsbD 0).toNat * 1 + (code.getLsbD 1).toNat * 2 + (code.getLsbD 2).toNat * 4 +
        ((List.range (code.extractLsb' 0 3).toNat).map fun i =>
          if code.getLsbD (15 - i) = true then 8 <<< i else 0).sum ∧
    (magicIndex code).toNat ≤ 1023 ∧
    (code.getLsbD 0).toNat * 1 + (code.getLsbD 1).toNat * 2 + (code.getLsbD 2).toNat * 4
      = (code.extractLsb' 0 3).toNat

/-- What 41 section 1 derives of the index (R131, marked derived there): it is the concatenation of the
count in [2:0] and `code[15-i] AND (i < n)` in bit `3 + i`, 10 bits wide. -/
def Obligations.MagicIndexHasBitForm : Prop :=
  ∀ code : Code,
    (magicIndex code).extractLsb' 0 3 = code.extractLsb' 0 3 ∧
    (∀ i, i < 7 →
      (magicIndex code).getLsbD (3 + i)
        = (code.getLsbD (15 - i) && decide (i < (code.extractLsb' 0 3).toNat))) ∧
    magicIndex code = magicIndexBits code

/-- 41 section 1 (R132, marked derived there): the codes whose index is at most 255, and how many are not. -/
def Obligations.MagicIndexRange : Prop :=
  (∀ code : Code,
    ((magicIndex code).toNat ≤ 255 ↔ (magicIndex code).extractLsb' 8 2 = 0#2) ∧
    ((magicIndex code).toNat ≤ 255 ↔
      (¬ (6 ≤ symbolTotal code ∧ code.getLsbD 10 = true) ∧
        ¬ (symbolTotal code = 7 ∧ code.getLsbD 9 = true))) ∧
    (symbolTotal code ≤ 5 → (magicIndex code).toNat ≤ 255)) ∧
  (List.range 65536).countP (fun c => decide (255 < (magicIndex (BitVec.ofNat 16 c)).toNat)) = 10240

/-- 41 section 1 (R133, marked derived there): the index is the count plus 8 times the number whose bit `i` is symbol `i`; two codes have
the same index exactly when they have the same count and first `n` symbols; the indices within 0..255
that some code has are `n + 8R` with `R < 2^min(n,5)`, 127 of them. -/
def Obligations.MagicIndexIsPerfectHash : Prop :=
  (∀ code : Code,
    (magicIndex code).toNat % 8 = symbolTotal code ∧
    ∀ i, ((magicIndex code).toNat / 8).testBit i = (symbolAt code i && decide (i < symbolTotal code))) ∧
  (∀ code code' : Code,
    magicIndex code = magicIndex code' ↔
      (symbolTotal code = symbolTotal code' ∧
        ∀ i, i < symbolTotal code → symbolAt code i = symbolAt code' i)) ∧
  (∀ m, m ≤ 255 →
    ((∃ code : Code, (magicIndex code).toNat = m) ↔
      ∃ n k, n ≤ 7 ∧ k < 2 ^ (min n 5) ∧ m = n + 8 * k)) ∧
  (List.range 256).countP (fun m => decide (m / 8 < 2 ^ (min (m % 8) 5))) = 127

/-- 41 section 2 (R136, marked derived there): codes that agree in the count and in the symbols it reaches have the same index, the same
range outcome and the same character, and the same response to both decoder operations. -/
def Obligations.UnreadCodeBitsDoNotMatter : Prop :=
  ∀ (b : Build) (code code' : Code),
    symbolTotal code = symbolTotal code' →
    (∀ i, i < symbolTotal code → code.getLsbD (15 - i) = code'.getLsbD (15 - i)) →
      magicIndex code = magicIndex code' ∧ magicInRange code = magicInRange code' ∧
      magicLookup b code = magicLookup b code' ∧
      expectedObservation b (.codeToChar code) = expectedObservation b (.codeToChar code') ∧
      (expectedObservation b (.decode code)).status = (expectedObservation b (.decode code')).status ∧
      (expectedObservation b (.decode code)).success = (expectedObservation b (.decode code')).success

/-! ### The encoder's lookup -/

/-- 40 R100: the class test. -/
def Obligations.CharacterClassRanges : Prop :=
  ∀ ch : Character,
    (classify ch = .letter ↔ 0x41 ≤ ch.toNat ∧ ch.toNat ≤ 0x5A) ∧
    (classify ch = .digit ↔ 0x30 ≤ ch.toNat ∧ ch.toNat ≤ 0x39) ∧
    (classify ch = .other ↔
      ¬ (0x41 ≤ ch.toNat ∧ ch.toNat ≤ 0x5A) ∧ ¬ (0x30 ≤ ch.toNat ∧ ch.toNat ≤ 0x39))

/-- 40 R101, R102: letters and digits read their ROM at `ch - 0x41` and `ch - 0x30`, subtracted on the
8-bit value with no wrap, at an index in range. -/
def Obligations.LettersAndDigitsReadDirectly : Prop :=
  ∀ (b : Build) (ch : Character),
    (classify ch = .letter →
      0x41 ≤ ch.toNat ∧ (ch - 0x41#8).toNat = ch.toNat - 0x41 ∧ (ch - 0x41#8).toNat ≤ 25 ∧
      b.letterRom.toList[(ch - 0x41#8).toNat]? = some (lookup b ch).code) ∧
    (classify ch = .digit →
      0x30 ≤ ch.toNat ∧ (ch - 0x30#8).toNat = ch.toNat - 0x30 ∧ (ch - 0x30#8).toNat ≤ 9 ∧
      b.digitRom.toList[(ch - 0x30#8).toNat]? = some (lookup b ch).code)

/-- 40 R103: for any other character the first entry with its key gives the code, at whatever place it
stands, and a character that is no key gives `ERROR_CODE` with `found = 0`. -/
def Obligations.OtherCharactersTakeFirstMatch : Prop :=
  ∀ (b : Build) (ch : Character), classify ch = .other →
    (∀ (j : Nat) (entry : PunctEntry), b.punctRom[j]? = some entry → entry.key = ch →
      (∀ (k : Nat) (earlier : PunctEntry), k < j → b.punctRom[k]? = some earlier → earlier.key ≠ ch) →
        lookup b ch = { code := entry.code, found := true }) ∧
    ((∀ entry ∈ b.punctRom, entry.key ≠ ch) →
      lookup b ch = { code := b.errorCode, found := false })

/-- 40 R104: `lookup` takes the letter entry, the digit entry or the scan by the class; `found` is 1
exactly when a table entry supplied the code, and 0 exactly when the scan fell through to
`ERROR_CODE`. -/
def Obligations.FoundMeansTableEntry : Prop :=
  ∀ (b : Build) (ch : Character),
    (classify ch = .letter →
      b.letterRom.toList[ch.toNat - 0x41]? = some (lookup b ch).code) ∧
    (classify ch = .digit →
      b.digitRom.toList[ch.toNat - 0x30]? = some (lookup b ch).code) ∧
    (classify ch = .other → lookup b ch = scan b ch) ∧
    ((lookup b ch).found = true ↔
      (classify ch = .letter ∨ classify ch = .digit ∨
        (classify ch = .other ∧ ∃ entry ∈ b.punctRom, entry.key = ch))) ∧
    ((lookup b ch).found = false →
      (lookup b ch).code = b.errorCode ∧ classify ch = .other ∧
        ∀ entry ∈ b.punctRom, entry.key ≠ ch)

/-- 40 R107: a lowercase letter never reads `LETTER_ROM` and goes to the scan: its result is the same
whatever the letter table holds, and `ERROR_CODE` with `found = 0` where it is no key. -/
def Obligations.LowercaseIsNotFolded : Prop :=
  ∀ (b : Build) (letters : Vector Code 26) (ch : Character),
    0x61 ≤ ch.toNat → ch.toNat ≤ 0x7A →
      classify ch = .other ∧ lookup b ch = scan b ch ∧
      lookup { b with letterRom := letters } ch = lookup b ch ∧
      ((∀ entry ∈ b.punctRom, entry.key ≠ ch) →
        lookup b ch = { code := b.errorCode, found := false })

/-- 40 section 3 (R114, marked derived there): every code the encoder outputs is a table entry or `ERROR_CODE`, with count 1..7 (1..5 for
a letter or digit), bits [10:3] zero and a magic index of at most 255. -/
def Obligations.EncoderOutputCodes : Prop :=
  ∀ (b : Build) (ch : Character), b.wf = true →
    ((lookup b ch).code ∈ b.letterRom.toList ∨ (lookup b ch).code ∈ b.digitRom.toList ∨
      (∃ entry ∈ b.punctRom, entry.code = (lookup b ch).code) ∨
      (lookup b ch).code = b.errorCode) ∧
    1 ≤ symbolTotal (lookup b ch).code ∧ symbolTotal (lookup b ch).code ≤ 7 ∧
    reservedField (lookup b ch).code = 0#8 ∧
    ((classify ch = .letter ∨ classify ch = .digit) → symbolTotal (lookup b ch).code ≤ 5) ∧
    (magicIndex (lookup b ch).code).toNat ≤ 255

/-- The corners of 40 R105, R106 and R112 (95 E37 to E43) in every admissible build: '?' has code 0x3006,
'e' is found with `ERROR_CODE`, and what is not printable ASCII is not found. -/
def Obligations.PunctuationCorners : Prop :=
  ∀ b : Build, b.wf = true →
    lookup b 0x3F#8 = { code := 0x3006#16, found := true } ∧
    lookup b 0x65#8 = { code := b.errorCode, found := true } ∧
    ∀ ch : Character, (ch.toNat < 0x20 ∨ 0x7E < ch.toNat) →
      lookup b ch = { code := b.errorCode, found := false }

/-! ### The four operations -/

/-- 40 R105: the step that takes a `char_to_code` request performs it, or refuses a nonzero reserved
byte; it answers OK with the looked-up code, and puts out nothing else. Nothing but its port's outputs
and response lines changes. The rule's corner cases and its example follow. -/
def Obligations.CharToCodeAnswersLookup : Prop :=
  (∀ (s : State) (r : Request) (rest : List Request),
    s.requests = r :: rest → r.word.extractLsb' 16 2 = 0#2 →
      step s =
        if r.word.extractLsb' 8 8 = 0#8 then
          exec (.charToCode (r.word.extractLsb' 0 8))
            { s with requests := rest, inFlight := some r.port }
        else .refused (.reservedOperand r.word)) ∧
  (∀ (s : State) (p : Nat) (port : Port) (ch : Character),
    s.inFlight = some p → s.ports[p]? = some port →
      ∃ a : Response, a.status = .ok ∧ a.codeOut = (lookup s.build ch).code ∧
        exec (.charToCode ch) s =
          .next (s.served p
            { response := a
              outputs := port.outputs ++ [.response (.charToCode ch) a]
              faults := port.faults })) ∧
  (∀ (b : Build) (ch : Character),
    (ch = 0x40#8 ∨ ch = 0x5B#8 ∨ ch = 0x2F#8 ∨ ch = 0x3A#8 → lookup b ch = scan b ch) ∧
    (0x61 ≤ ch.toNat → ch.toNat ≤ 0x7A → lookup b ch = scan b ch) ∧
    (classify ch = .other → (∀ entry ∈ b.punctRom, entry.key ≠ ch) →
      (lookup b ch).code = b.errorCode) ∧
    (b.wf = true → (ch.toNat ≤ 0x1F ∨ 0x7F ≤ ch.toNat) → (lookup b ch).code = b.errorCode) ∧
    (∀ (j : Nat) (entry : PunctEntry),
      classify ch = .other → b.punctRom[j]? = some entry → entry.key = ch →
      (∀ (k : Nat) (earlier : PunctEntry), k < j → b.punctRom[k]? = some earlier → earlier.key ≠ ch) →
        (lookup b ch).code = entry.code) ∧
    (b.wf = true → (lookup b 0x41#8).code = 0x4002#16))

/-- 40 R106: the step that takes an `encode` request performs it, or refuses a nonzero reserved byte;
it delivers `(ch, code)` to the sink in every case, then answers OK with `success = found`: 0 with
`ERROR_CODE` where there is no mapping, 1 for letters and digits, and 1 for 'e', whose code is
`ERROR_CODE`. Nothing but its port's outputs and response lines changes. The example is 'S', with the
default letter table. -/
def Obligations.EncodeDeliversLookup : Prop :=
  (∀ (s : State) (r : Request) (rest : List Request),
    s.requests = r :: rest → r.word.extractLsb' 16 2 = 1#2 →
      step s =
        if r.word.extractLsb' 8 8 = 0#8 then
          exec (.encode (r.word.extractLsb' 0 8))
            { s with requests := rest, inFlight := some r.port }
        else .refused (.reservedOperand r.word)) ∧
  (∀ (s : State) (p : Nat) (port : Port) (ch : Character),
    s.inFlight = some p → s.ports[p]? = some port →
      ∃ a : Response, a.status = .ok ∧ a.success = (lookup s.build ch).found ∧
        exec (.encode ch) s =
          .next (s.served p
            { response := a
              outputs := port.outputs ++
                [.sink (.enc ch (lookup s.build ch).code), .response (.encode ch) a]
              faults := port.faults })) ∧
  (∀ (b : Build) (ch : Character),
    (classify ch = .other → (∀ entry ∈ b.punctRom, entry.key ≠ ch) →
      lookup b ch = { code := b.errorCode, found := false }) ∧
    (classify ch = .letter ∨ classify ch = .digit → (lookup b ch).found = true) ∧
    (b.wf = true → lookup b 0x65#8 = { code := b.errorCode, found := true }) ∧
    (usesDefaultTables b = true → lookup b 0x53#8 = { code := 0x0003#16, found := true }))

/-- 41 R134: the step that takes a `code_to_char` request performs it, whatever the code; it answers OK
with the `MAGIC_ROM` character at the magic index where that is at most 255, and otherwise ends as the
fault; no sink event in either case. Nothing but its port changes. The rule's corner cases and its
example follow. -/
def Obligations.CodeToCharAnswersMagicEntry : Prop :=
  (∀ (s : State) (r : Request) (rest : List Request),
    s.requests = r :: rest → r.word.extractLsb' 16 2 = 2#2 →
      step s =
        exec (.codeToChar (r.word.extractLsb' 0 16))
          { s with requests := rest, inFlight := some r.port }) ∧
  (∀ (s : State) (p : Nat) (port : Port) (code : Code),
    s.inFlight = some p → s.ports[p]? = some port →
      ((magicIndex code).toNat ≤ 255 →
        ∃ a : Response, a.status = .ok ∧
          s.build.magicRom.toList[(magicIndex code).toNat]? = some a.chOut ∧
          exec (.codeToChar code) s =
            .next (s.served p
              { response := a
                outputs := port.outputs ++ [.response (.codeToChar code) a]
                faults := port.faults })) ∧
      (255 < (magicIndex code).toNat →
        ∃ a : Response, a.status = .fault ∧
          exec (.codeToChar code) s =
            .next (s.served p
              { response := a
                outputs := port.outputs ++ [.response (.codeToChar code) a]
                faults := port.faults ++ [{ code := code, idx := magicIndex code }] }))) ∧
  (∀ code code' : Code,
    (symbolTotal code = 0 → magicIndex code = 0#10) ∧
    (6 ≤ symbolTotal code → code.getLsbD 10 = false → code.getLsbD 9 = false →
      (magicIndex code).toNat ≤ 255) ∧
    (symbolTotal code = symbolTotal code' →
      (∀ i, i < symbolTotal code → code.getLsbD (15 - i) = code'.getLsbD (15 - i)) →
        magicIndex code = magicIndex code')) ∧
  magicIndex 0x41FA#16 = magicIndex 0x4002#16 ∧ magicIndex 0x4802#16 = magicIndex 0x4002#16 ∧
  magicIndex 0xF9FF#16 = 255#10 ∧ magicIndex 0xFFFF#16 = 1023#10 ∧
  magicIndex 0x4002#16 = 18#10 ∧
  (∀ b : Build, b.wf = true →
    b.magicCharacter 0x3006#16 = some 0x3F#8 ∧ b.magicCharacter 0x4002#16 = some 0x41#8)

/-- 41 R135: the step that takes a `decode` request performs it, whatever the code; it delivers
`(code, ch)` to the sink and then answers OK with `success = 1` where the index is at most 255, and
otherwise ends as the fault with no sink event. Nothing but its port changes. The corner cases (those of
`code_to_char`) and the example follow. -/
def Obligations.DecodeDeliversMagicEntry : Prop :=
  (∀ (s : State) (r : Request) (rest : List Request),
    s.requests = r :: rest → r.word.extractLsb' 16 2 = 3#2 →
      step s =
        exec (.decode (r.word.extractLsb' 0 16))
          { s with requests := rest, inFlight := some r.port }) ∧
  (∀ (s : State) (p : Nat) (port : Port) (code : Code),
    s.inFlight = some p → s.ports[p]? = some port →
      ((magicIndex code).toNat ≤ 255 →
        ∃ (ch : Character) (a : Response),
          s.build.magicRom.toList[(magicIndex code).toNat]? = some ch ∧
          a.status = .ok ∧ a.success = true ∧
          exec (.decode code) s =
            .next (s.served p
              { response := a
                outputs := port.outputs ++ [.sink (.dec code ch), .response (.decode code) a]
                faults := port.faults })) ∧
      (255 < (magicIndex code).toNat →
        ∃ a : Response, a.status = .fault ∧
          exec (.decode code) s =
            .next (s.served p
              { response := a
                outputs := port.outputs ++ [.response (.decode code) a]
                faults := port.faults ++ [{ code := code, idx := magicIndex code }] }))) ∧
  (∀ code code' : Code,
    (symbolTotal code = 0 → magicIndex code = 0#10) ∧
    (6 ≤ symbolTotal code → code.getLsbD 10 = false → code.getLsbD 9 = false →
      (magicIndex code).toNat ≤ 255) ∧
    (symbolTotal code = symbolTotal code' →
      (∀ i, i < symbolTotal code → code.getLsbD (15 - i) = code'.getLsbD (15 - i)) →
        magicIndex code = magicIndex code')) ∧
  magicIndex 0xF9FF#16 = 255#10 ∧ magicIndex 0xFFFF#16 = 1023#10 ∧
  magicIndex 0xF805#16 = 253#10 ∧
  (∀ b : Build, b.wf = true →
    b.magicCharacter 0x3006#16 = some 0x3F#8 ∧ b.magicCharacter 0xF805#16 = some 0x30#8)

/-- 60 R162: an index above 255 is recorded with its code, the response has status FAULT, no event is
put out, and `MAGIC_ROM` is not read: another table changes nothing of it. The next transaction, on any
port, completes as it would after reset. -/
def Obligations.OutOfRangeDecodeFaults : Prop :=
  ∀ (s : State) (p : Nat) (port : Port) (code : Code) (i : Instr) (rom : Vector Character 256),
    s.inFlight = some p → s.ports[p]? = some port →
    (i = .codeToChar code ∨ i = .decode code) → 255 < (magicIndex code).toNat →
      ∃ (t : State) (a : Response), a.status = .fault ∧ exec i s = .next t ∧
        t = s.served p
            { response := a
              outputs := port.outputs ++ [.response i a]
              faults := port.faults ++ [{ code := code, idx := magicIndex code }] } ∧
        exec i { s with build := { s.build with magicRom := rom } } =
          .next { t with build := { s.build with magicRom := rom } } ∧
        ∀ (next : Request) (j : Instr),
          next.port < s.ports.length → decodeRequest next.word = .instr j →
            t.completes next j ∧ (applyReset t).completes next j

/-- 60 R161: a character that is no letter, no digit and no key completes normally: `char_to_code` with
`ERROR_CODE`, `encode` with the event `(ch, ERROR_CODE)` and `success = 0`; nothing else records it. -/
def Obligations.NoMappingCompletesNormally : Prop :=
  ∀ (s : State) (p : Nat) (port : Port) (ch : Character),
    s.inFlight = some p → s.ports[p]? = some port →
    classify ch = .other → (∀ entry ∈ s.build.punctRom, entry.key ≠ ch) →
      (∃ a : Response, a.status = .ok ∧ a.codeOut = s.build.errorCode ∧
        exec (.charToCode ch) s =
          .next (s.served p
            { response := a
              outputs := port.outputs ++ [.response (.charToCode ch) a]
              faults := port.faults })) ∧
      (∃ a : Response, a.status = .ok ∧ a.success = false ∧
        exec (.encode ch) s =
          .next (s.served p
            { response := a
              outputs := port.outputs ++
                [.sink (.enc ch s.build.errorCode), .response (.encode ch) a]
              faults := port.faults }))

/-- 30 R71: every operation completes, whatever its operand and whatever ran before, with the status,
the defined fields and the sink event the table gives it, and with the fault of 60 R162 exactly where
the index is above 255. -/
def Obligations.OperationsCompleteAsTabled : Prop :=
  ∀ (s : State) (p : Nat) (port : Port) (i : Instr),
    s.inFlight = some p → s.ports[p]? = some port →
      ∃ (t : State) (port' : Port) (added : List Output),
        exec i s = .next t ∧ t.ports[p]? = some port' ∧
        port'.outputs = port.outputs ++ added ∧
        observeOutputs none added = [expectedObservation s.build i] ∧
        port'.faults = port.faults ++ expectedFaults i

/-- 10 R27: `encode` emits exactly one event `Sink(ENC, ch, code)` and `decode` (in range) exactly one
`Sink(DEC, code, ch)`, before the response; the other two operations emit none. -/
def Obligations.SinkEventsPerOperation : Prop :=
  ∀ (s t : State) (p : Nat) (port port' : Port) (i : Instr),
    s.inFlight = some p → s.ports[p]? = some port → exec i s = .next t → t.ports[p]? = some port' →
      match i with
      | .charToCode _ => port'.sinkStream = port.sinkStream
      | .codeToChar _ => port'.sinkStream = port.sinkStream
      | .encode ch =>
        port'.sinkStream = port.sinkStream ++ [.enc ch (lookup s.build ch).code] ∧
        port'.outputs = port.outputs ++
          [.sink (.enc ch (lookup s.build ch).code), .response i port'.response]
      | .decode code =>
        if (magicIndex code).toNat ≤ 255 then
          port'.sinkStream = port.sinkStream ++ [.dec code (magicLookup s.build code)] ∧
          port'.outputs = port.outputs ++
            [.sink (.dec code (magicLookup s.build code)), .response i port'.response]
        else port'.sinkStream = port.sinkStream

/-- 41 R141: neither decoder operation rejects a code because of its count: count 0 answers
`MAGIC_ROM[0]`, counts up to 5 answer OK, counts 6 and 7 answer OK where the index is in range, and the
only fault is an index above 255. -/
def Obligations.CountIsNotValidated : Prop :=
  ∀ (s : State) (p : Nat) (port : Port) (code : Code) (i : Instr),
    s.inFlight = some p → s.ports[p]? = some port →
    (i = .codeToChar code ∨ i = .decode code) →
      ∃ (t : State) (port' : Port), exec i s = .next t ∧ t.ports[p]? = some port' ∧
        (port'.response.status = .fault ↔ 255 < (magicIndex code).toNat) ∧
        (symbolTotal code ≤ 5 → port'.response.status = .ok) ∧
        (symbolTotal code = 6 → code.getLsbD 10 = false → port'.response.status = .ok) ∧
        (symbolTotal code = 7 → code.getLsbD 10 = false → code.getLsbD 9 = false →
          port'.response.status = .ok) ∧
        (symbolTotal code = 0 →
          (i = .codeToChar code → s.build.magicRom.toList[0]? = some port'.response.chOut) ∧
          (i = .decode code →
            ∃ ch, s.build.magicRom.toList[0]? = some ch ∧
              port'.sinkStream = port.sinkStream ++ [.dec code ch]))

/-- The frame of the four operations: where one answers a next state, the ROMs, the requests, the number
of ports and every port but the one served are as before; the port served keeps all it had put out and
recorded and only gains at the end; nothing is left in flight. -/
def Obligations.OperationFrame : Prop :=
  ∀ (i : Instr) (s t : State), exec i s = .next t →
    ∃ (p : Nat) (port port' : Port),
      s.inFlight = some p ∧ s.ports[p]? = some port ∧ t.ports[p]? = some port' ∧
      t.build = s.build ∧ t.requests = s.requests ∧ t.ports.length = s.ports.length ∧
      (∀ q, q ≠ p → t.ports[q]? = s.ports[q]?) ∧
      t.inFlight = none ∧ t.draws = s.draws + 1 ∧
      (∃ added, port'.outputs = port.outputs ++ added) ∧
      (∃ recorded, port'.faults = port.faults ++ recorded)

/-- Where the model stops (logs 11, 12; the model's own): an operation stops exactly where no
transaction is in flight or its port does not exist, and never refuses. -/
def Obligations.OperationStopsOnlyWithoutPort : Prop :=
  ∀ (i : Instr) (s : State),
    (exec i s = .fault .noTransaction ↔ s.inFlight = none) ∧
    (∀ p, exec i s = .fault (.noSuchPort p) ↔ (s.inFlight = some p ∧ s.ports.length ≤ p)) ∧
    (∀ reason, exec i s ≠ .refused reason)

/-- 40 R117: the encoder's results do not depend on `MAGIC_ROM`, the decoder's not on the letter, digit
and punctuation ROMs or `ERROR_CODE`: with other tables there, the operation answers a next state too,
and everything in it but the tables themselves is the same. -/
def Obligations.EncoderAndDecoderAreIndependent : Prop :=
  (∀ (s t : State) (rom : Vector Character 256) (ch : Character) (i : Instr),
    (i = .charToCode ch ∨ i = .encode ch) → exec i s = .next t →
      exec i { s with build := { s.build with magicRom := rom } } =
        .next { t with build := { s.build with magicRom := rom } }) ∧
  (∀ (s t : State) (other : Build) (code : Code) (i : Instr),
    (i = .codeToChar code ∨ i = .decode code) → other.magicRom = s.build.magicRom →
    exec i s = .next t →
      exec i { s with build := other } = .next { t with build := other })

/-! ### Round trips -/

/-- 41 section 3 (R142, marked derived there): decoding the encoder's answer gives the character back, for every letter, digit, '?', 'e'
and every `PUNCT_ROM` key other than 'i', 'u' and 'w'; the second transaction may be on any port and at
any later time. -/
def Obligations.RoundTripGivesCharacterBack : Prop :=
  ∀ (s u : State) (p q : Nat) (port port' : Port) (ch : Character),
    s.build.wf = true → u.build = s.build →
    s.inFlight = some p → s.ports[p]? = some port →
    u.inFlight = some q → u.ports[q]? = some port' →
    (classify ch = .letter ∨ classify ch = .digit ∨ ch = 0x3F#8 ∨ ch = 0x65#8 ∨
      ((∃ entry ∈ s.build.punctRom, entry.key = ch) ∧ ch ≠ 0x69#8 ∧ ch ≠ 0x75#8 ∧ ch ≠ 0x77#8)) →
      ∃ (t v : State) (a a' : Port),
        exec (.charToCode ch) s = .next t ∧ t.ports[p]? = some a ∧ a.response.status = .ok ∧
        exec (.codeToChar a.response.codeOut) u = .next v ∧ v.ports[q]? = some a' ∧
        a'.response.status = .ok ∧ a'.response.chOut = ch

/-- 41 section 3 (R140): the encoder's answer for the aliases 'i', 'u' and 'w' decodes to the character the
configuration fixes for them, `ALIAS_DECODE_i` and its counterparts, whatever it is. -/
def Obligations.AliasesDecodeAsConfigured : Prop :=
  ∀ (s u : State) (p q : Nat) (port port' : Port) (ch : Character),
    s.build.wf = true → u.build = s.build →
    s.inFlight = some p → s.ports[p]? = some port →
    u.inFlight = some q → u.ports[q]? = some port' →
    (ch = 0x69#8 ∨ ch = 0x75#8 ∨ ch = 0x77#8) →
      ∃ (c : Character) (t v : State) (a a' : Port), s.build.aliasDecode ch = some c ∧
        exec (.charToCode ch) s = .next t ∧ t.ports[p]? = some a ∧ a.response.status = .ok ∧
        exec (.codeToChar a.response.codeOut) u = .next v ∧ v.ports[q]? = some a' ∧
        a'.response.status = .ok ∧ a'.response.chOut = c

/-- 41 section 3 (R143, marked derived there): the encoder's answer for a character that is no letter, digit or key decodes to 'e'. -/
def Obligations.AbsentCharacterDecodesToE : Prop :=
  ∀ (s u : State) (p q : Nat) (port port' : Port) (ch : Character),
    s.build.wf = true → u.build = s.build →
    s.inFlight = some p → s.ports[p]? = some port →
    u.inFlight = some q → u.ports[q]? = some port' →
    classify ch = .other → (∀ entry ∈ s.build.punctRom, entry.key ≠ ch) →
      ∃ (t v : State) (a a' : Port),
        exec (.charToCode ch) s = .next t ∧ t.ports[p]? = some a ∧ a.response.status = .ok ∧
        exec (.codeToChar a.response.codeOut) u = .next v ∧ v.ports[q]? = some a' ∧
        a'.response.status = .ok ∧ a'.response.chOut = 0x65#8

/-- 41 section 2 (R137, marked derived there): decoding an encoder output never faults, by either decoder operation. -/
def Obligations.EncoderOutputNeverFaults : Prop :=
  ∀ (s : State) (p : Nat) (port : Port) (ch : Character) (i : Instr),
    s.build.wf = true → s.inFlight = some p → s.ports[p]? = some port →
    (i = .codeToChar (lookup s.build ch).code ∨ i = .decode (lookup s.build ch).code) →
      (magicIndex (lookup s.build ch).code).extractLsb' 8 2 = 0#2 ∧
      ∃ (t : State) (port' : Port),
        exec i s = .next t ∧ t.ports[p]? = some port' ∧ port'.response.status = .ok ∧
        port'.faults = port.faults

/-- 95 W1 to W3 (the source's examples), in every admissible build: 'A' is 0x4002, '0' is 0xF805, '?'
is 0x3006, and each decodes back. -/
def Obligations.SourceExamples : Prop :=
  ∀ b : Build, b.wf = true →
    (lookup b 0x41#8).code = 0x4002#16 ∧ b.magicCharacter 0x4002#16 = some 0x41#8 ∧
    (lookup b 0x30#8).code = 0xF805#16 ∧ b.magicCharacter 0xF805#16 = some 0x30#8 ∧
    (lookup b 0x3F#8).code = 0x3006#16 ∧ b.magicCharacter 0x3006#16 = some 0x3F#8

/-! ### The build -/

/-- 40 section 3 (R113; its last constraint marked derived there): the constraints on `ERROR_CODE` hold in every admissible build, the last of them derived:
it differs from every letter and digit code and from 0x3006. -/
def Obligations.ErrorCodeConstraints : Prop :=
  ∀ b : Build, b.wf = true →
    1 ≤ symbolTotal b.errorCode ∧ symbolTotal b.errorCode ≤ 7 ∧ reservedField b.errorCode = 0#8 ∧
    b.magicRom.toList[(magicIndex b.errorCode).toNat]? = some 0x65#8 ∧
    (∃ (j : Nat) (entry : PunctEntry), b.punctRom[j]? = some entry ∧ entry.key = 0x65#8 ∧
      entry.code = b.errorCode ∧
      ∀ (k : Nat) (earlier : PunctEntry), k < j → b.punctRom[k]? = some earlier →
        earlier.key ≠ 0x65#8) ∧
    b.errorCode ∉ b.letterRom.toList ∧ b.errorCode ∉ b.digitRom.toList ∧ b.errorCode ≠ 0x3006#16

/-- 41 section 3 (R139, marked derived there): with the default letter and digit tables, every admissible build holds the 37 listed
entries of `MAGIC_ROM`, and the entry for 'e' sits at none of their indices. -/
def Obligations.FixedMagicEntries : Prop :=
  ∀ b : Build, b.wf = true → usesDefaultTables b = true →
    fixedMagicEntries.length = 37 ∧
    (∀ entry ∈ fixedMagicEntries, b.magicRom.toList[entry.1]? = some entry.2) ∧
    (∀ entry ∈ fixedMagicEntries, entry.1 ≠ (magicIndex b.errorCode).toNat)

/-- 40 section 3 (R112; K >= 5 marked derived there): at least five keys, and the constraints on `PUNCT_ROM` in every admissible build. -/
def Obligations.PunctuationTableConstraints : Prop :=
  ∀ b : Build, b.wf = true →
    5 ≤ b.punctRom.length ∧
    (∀ ch ∈ [0x3F#8, 0x65#8, 0x69#8, 0x75#8, 0x77#8], ∃ entry ∈ b.punctRom, entry.key = ch) ∧
    (∀ entry ∈ b.punctRom,
      0x20 ≤ entry.key.toNat ∧ entry.key.toNat ≤ 0x7E ∧
      1 ≤ symbolTotal entry.code ∧ symbolTotal entry.code ≤ 7 ∧ reservedField entry.code = 0#8)

/-- The block's own build is admissible and has the default letter and digit tables (70 R193, 40 R110,
R111), whatever the OPEN tables are. -/
def Obligations.BlockBuildIsAdmissible : Prop :=
  blockBuild.wf = true ∧ usesDefaultTables blockBuild = true

/-- The model's form of the OPEN tables (log 2) leaves out no build: every admissible build with the
default tables is assembled, unchanged, from its own OPEN tables. -/
def Obligations.AssembledBuildIsGeneral : Prop :=
  ∀ b : Build, b.wf = true → usesDefaultTables b = true →
    assembleBuild { punctRom := b.punctRom, errorCode := b.errorCode, magicRom := b.magicRom } = b

/-- 10 section 2; the ROMs stand in State (log 1): no number of steps changes a ROM or the number of ports. -/
def Obligations.RunsNeverChangeRoms : Prop :=
  ∀ (k : Nat) (s t : State), runFor k s = .next t →
    t.build = s.build ∧ t.ports.length = s.ports.length

/-! ### Reset -/

/-- 10 R30, 70 R190: after reset the ROMs hold the block's build, no transaction is in flight, there is
at least one port, and no port has an event or a response pending. -/
def Obligations.ResetState : Prop :=
  State.reset.build = blockBuild ∧ State.reset.inFlight = none ∧ 1 ≤ State.reset.ports.length ∧
  ∀ port ∈ State.reset.ports, port.outputs = []

/-- 70 R191, R190: resetting the block in any state leaves the ROMs and clears what is in flight and
pending. -/
def Obligations.ResetKeepsRomsAndClearsPorts : Prop :=
  ∀ s : State,
    (applyReset s).build = s.build ∧ (applyReset s).inFlight = none ∧
    (applyReset s).ports.length = s.ports.length ∧
    ∀ port ∈ (applyReset s).ports, port.outputs = []

/-- 70 R192: a legal request issued in the first step after a reset completes as its operation does, and
so does the same request issued in any other state, at any later time. -/
def Obligations.RequestAfterResetCompletesAlike : Prop :=
  ∀ (s : State) (r : Request) (i : Instr),
    r.port < s.ports.length → decodeRequest r.word = .instr i →
      (applyReset s).completes r i ∧ s.completes r i ∧
      ∃ t, step (issueFirst r (applyReset s)) = .next t ∧
        t.observation r.port = [expectedObservation s.build i]

/-! ### Invariant, runs, ports -/

/-- The invariant holds at reset; its clause that the response lines show the last response is the
model's choice (log 8). -/
def Obligations.InvariantAtReset : Prop := State.reset.inv = true

/-- The invariant of the machine (`State.inv`): the build stays admissible, every port's outputs conform
to the rules of the operations answered (each sink event at once followed by its own response), the
recorded faults are exactly theirs, requests are on existing ports and nothing is in flight; and the
response lines show the last response, which is the model's choice (log 8). Every step keeps it. -/
def Obligations.StepKeepsInvariant : Prop :=
  ∀ s t : State, s.inv = true → step s = .next t → t.inv = true

/-- 60 sections 1 and 2, with the model's own faults (logs 11, 12): where the invariant holds, a step never stops with a fault; it is refused exactly for
a reserved word, and otherwise answers a next state. -/
def Obligations.StepNeverStopsWithFault : Prop :=
  ∀ s : State, s.inv = true →
    (∀ reason, step s ≠ .fault reason) ∧
    ((∃ t, step s = .next t) ↔ ∀ r rest, s.requests = r :: rest → requestLegal r.word = true)

/-- 20 R49; 70 R198: from any state of the invariant whose requests are legal, the run ends with
every request completed, and at each port its observation has grown by exactly the observations the
rules give the operations of its own request program, in request order, and its recorded faults by
exactly theirs, whatever the other ports do and however the programs interleave. -/
def Obligations.RunAnswersEachPortsProgram : Prop :=
  ∀ (s : State) (k : Nat), s.inv = true → s.requestsLegal = true → s.requests.length ≤ k →
    ∃ t, runFor k s = .next t ∧ t.runEnded = true ∧ t.build = s.build ∧
      ∀ p,
        t.observation p =
          s.observation p ++ (programOperations (s.program p)).map (expectedObservation s.build) ∧
        t.recordedFaults p =
          s.recordedFaults p ++ (programOperations (s.program p)).flatMap expectedFaults

/-- What 20 section 3 says of interleavings (R49): two interleavings of the same request programs both
run to their end, and give every port the same observation and the same recorded faults. -/
def Obligations.InterleavingDoesNotMatter : Prop :=
  ∀ (s : State) (order : List Request) (k : Nat),
    s.inv = true → s.requestsLegal = true →
    (∀ p, State.program { s with requests := order } p = s.program p) →
    s.requests.length ≤ k →
      ∃ t t' : State,
        runFor k s = .next t ∧ runFor k { s with requests := order } = .next t' ∧
        t.runEnded = true ∧ t'.runEnded = true ∧
        ∀ p, t'.observation p = t.observation p ∧ t'.recordedFaults p = t.recordedFaults p

/-- A run that holds refused requests (60 section 1, R163; 70 section 4; 95 P5; the model's form of it,
log 6): the run marks every reserved request word and no other, and goes on; at every port the legal
requests have the observations and faults the rules give them, as if the refused ones were not there. -/
def Obligations.RefusedRequestsAreMarkedAndSkipped : Prop :=
  ∀ (s : State) (k : Nat), s.inv = true → s.requests.length ≤ k →
    ∃ t, runMarked k [] s =
        some { state := t
               refused := (s.requests.map Request.word).filter fun word => !requestLegal word } ∧
      t.runEnded = true ∧ t.build = s.build ∧
      ∀ p,
        t.observation p =
          s.observation p ++ (programOperations (s.program p)).map (expectedObservation s.build) ∧
        t.recordedFaults p =
          s.recordedFaults p ++ (programOperations (s.program p)).flatMap expectedFaults

/-- 10 R29: a transaction on one port neither affects nor reads another port: the other ports are as
before, and the served port ends the same whatever the other ports hold; there is at least one port
after reset. -/
def Obligations.PortsAreIndependent : Prop :=
  (∀ (s s' t : State) (r : Request) (rest : List Request),
    s.requests = r :: rest → step s = .next t →
    s'.build = s.build → s'.requests = s.requests → s'.draws = s.draws →
    s'.ports[r.port]? = s.ports[r.port]? →
      (∀ q, q ≠ r.port → t.ports[q]? = s.ports[q]?) ∧
      ∃ t', step s' = .next t' ∧ t'.ports[r.port]? = t.ports[r.port]?) ∧
  1 ≤ State.reset.ports.length

/-- 60 section 2 (R167, marked derived there): a transaction after a fault behaves exactly as it would
have without the fault, here for any transaction before it, faulting or not: the next request completes
after the first one as it does with the first one left out, with the same observation and the same
recorded faults, those the rules give its operation in the build both begin with. -/
def Obligations.EarlierTransactionLeavesNoTrace : Prop :=
  ∀ (s t : State) (first next : Request) (rest : List Request) (j : Instr),
    s.requests = first :: next :: rest → step s = .next t →
    next.port < s.ports.length → decodeRequest next.word = .instr j →
      t.build = s.build ∧ t.requests = next :: rest ∧
      State.completes { t with requests := rest } next j ∧
      State.completes { s with requests := rest } next j
end

