-- ==== Sys2Proof/Laws/Decode.lean ====
section
/-! SUPPORT. The fields of an encoded instruction's request word. -/

namespace Sys2Proof

/-- The bits of a word put together from `OP` and `OPERAND` (30 R67). -/
theorem requestWord_bit (op : BitVec 2) (operand : BitVec 16) (k : Nat) :
    (requestWord op operand).getLsbD k =
      if k < 16 then operand.getLsbD k else op.getLsbD (k - 16) := by
  have h := BitVec.getLsbD_append (x := op) (y := operand) (i := k)
  simpa [requestWord] using h

/-- The bits of a character operand (30 R69). -/
theorem characterOperand_bit (ch : Character) (k : Nat) :
    (characterOperand ch).getLsbD k = if k < 8 then ch.getLsbD k else false := by
  have h := BitVec.getLsbD_append (x := 0#8) (y := ch) (i := k)
  simpa [characterOperand] using h

/-- `OP` is the upper two bits of the word. -/
theorem requestOp_requestWord (op : BitVec 2) (operand : BitVec 16) :
    requestOp (requestWord op operand) = op := by
  apply BitVec.eq_of_getLsbD_eq
  intro k hk
  simp only [requestOp, BitVec.getLsbD_extractLsb', requestWord_bit]
  simp [hk]

/-- `OPERAND` is its lower sixteen bits. -/
theorem requestOperand_requestWord (op : BitVec 2) (operand : BitVec 16) :
    requestOperand (requestWord op operand) = operand := by
  apply BitVec.eq_of_getLsbD_eq
  intro k hk
  simp only [requestOperand, BitVec.getLsbD_extractLsb', requestWord_bit]
  simp [hk]

/-- The reserved byte of a word is the upper byte of its operand. -/
theorem requestReservedByte_eq (w : RequestWord) :
    requestReservedByte w = (requestOperand w).extractLsb' 8 8 := by
  apply BitVec.eq_of_getLsbD_eq
  intro k hk
  simp [requestReservedByte, requestOperand, hk]

/-- The upper byte of a character operand. -/
theorem characterOperand_upper (ch : Character) :
    (characterOperand ch).extractLsb' 8 8 = 0#8 := by
  apply BitVec.eq_of_getLsbD_eq
  intro k hk
  simp only [BitVec.getLsbD_extractLsb', characterOperand_bit]
  simp

/-- The lower byte of a character operand. -/
theorem characterOperand_lower (ch : Character) :
    (characterOperand ch).extractLsb' 0 8 = ch := by
  apply BitVec.eq_of_getLsbD_eq
  intro k hk
  simp only [BitVec.getLsbD_extractLsb', characterOperand_bit]
  simp [hk]

/-- The four values of `OP`. -/
theorem requestOp_cases (w : RequestWord) :
    requestOp w = 0#2 ∨ requestOp w = 1#2 ∨ requestOp w = 2#2 ∨ requestOp w = 3#2 := by
  have h : ∀ op : BitVec 2, op = 0#2 ∨ op = 1#2 ∨ op = 2#2 ∨ op = 3#2 := by decide
  exact h (requestOp w)

end Sys2Proof
end

