-- ==== Sys2Proof/Laws/State.lean ====
section
/-! SUPPORT. One lemma per field for each update of the state, its ports and its responses, so that no
later proof unfolds a record update. -/

namespace Sys2Proof.Machine

variable (s : State) (port : Port) (d : Nat)

@[simp] theorem Response.free_status : (Response.free d).status = Config.freeStatus d := rfl
@[simp] theorem Response.free_codeOut : (Response.free d).codeOut = Config.freeCodeOut d := rfl
@[simp] theorem Response.free_chOut : (Response.free d).chOut = Config.freeChOut d := rfl
@[simp] theorem Response.free_success : (Response.free d).success = Config.freeSuccess d := rfl

@[simp] theorem codeResponse_status (code : Code) : (codeResponse d code).status = .ok := rfl
@[simp] theorem codeResponse_codeOut (code : Code) : (codeResponse d code).codeOut = code := rfl
@[simp] theorem charResponse_status (ch : Character) : (charResponse d ch).status = .ok := rfl
@[simp] theorem charResponse_chOut (ch : Character) : (charResponse d ch).chOut = ch := rfl
@[simp] theorem successResponse_status (b : Bool) : (successResponse d b).status = .ok := rfl
@[simp] theorem successResponse_success (b : Bool) : (successResponse d b).success = b := rfl
@[simp] theorem faultResponse_status : (faultResponse d).status = .fault := rfl

@[simp] theorem Port.reset_response : (Port.reset d).response = Response.free d := rfl
@[simp] theorem Port.reset_outputs : (Port.reset d).outputs = [] := rfl
@[simp] theorem Port.reset_faults : (Port.reset d).faults = [] := rfl

@[simp] theorem Port.respond_response (i : Instr) (r : Response) :
    (port.respond i r).response = r := rfl
@[simp] theorem Port.respond_outputs (i : Instr) (r : Response) :
    (port.respond i r).outputs = port.outputs ++ [.response i r] := rfl
@[simp] theorem Port.respond_faults (i : Instr) (r : Response) :
    (port.respond i r).faults = port.faults := rfl

@[simp] theorem Port.emit_response (e : SinkEvent) : (port.emit e).response = port.response := rfl
@[simp] theorem Port.emit_outputs (e : SinkEvent) :
    (port.emit e).outputs = port.outputs ++ [.sink e] := rfl
@[simp] theorem Port.emit_faults (e : SinkEvent) : (port.emit e).faults = port.faults := rfl

@[simp] theorem Port.recordFault_response (code : Code) :
    (port.recordFault code).response = port.response := rfl
@[simp] theorem Port.recordFault_outputs (code : Code) :
    (port.recordFault code).outputs = port.outputs := rfl
@[simp] theorem Port.recordFault_faults (code : Code) :
    (port.recordFault code).faults = port.faults ++ [{ code := code, idx := magicIndex code }] := rfl

@[simp] theorem issueFirst_build (r : Request) : (issueFirst r s).build = s.build := rfl
@[simp] theorem issueFirst_ports (r : Request) : (issueFirst r s).ports = s.ports := rfl
@[simp] theorem issueFirst_requests (r : Request) :
    (issueFirst r s).requests = r :: s.requests := rfl
@[simp] theorem issueFirst_inFlight (r : Request) : (issueFirst r s).inFlight = s.inFlight := rfl
@[simp] theorem issueFirst_draws (r : Request) : (issueFirst r s).draws = s.draws := rfl

@[simp] theorem applyReset_build : (applyReset s).build = s.build := rfl
@[simp] theorem applyReset_ports :
    (applyReset s).ports = resetPorts s.ports.length s.draws := rfl
@[simp] theorem applyReset_requests : (applyReset s).requests = s.requests := rfl
@[simp] theorem applyReset_inFlight : (applyReset s).inFlight = none := rfl
@[simp] theorem applyReset_draws : (applyReset s).draws = s.draws + s.ports.length := rfl

@[simp] theorem State.reset_build : State.reset.build = blockBuild := rfl
@[simp] theorem State.reset_ports : State.reset.ports = resetPorts Config.numPorts 0 := rfl
@[simp] theorem State.reset_requests : State.reset.requests = [] := rfl
@[simp] theorem State.reset_inFlight : State.reset.inFlight = none := rfl
@[simp] theorem State.reset_draws : State.reset.draws = Config.numPorts := rfl

@[simp] theorem emit_build (e : SinkEvent) : (emit e s).build = s.build := by
  unfold emit; split <;> [rfl; (split <;> rfl)]
@[simp] theorem emit_requests (e : SinkEvent) : (emit e s).requests = s.requests := by
  unfold emit; split <;> [rfl; (split <;> rfl)]
@[simp] theorem emit_inFlight (e : SinkEvent) : (emit e s).inFlight = s.inFlight := by
  unfold emit; split <;> [rfl; (split <;> rfl)]
@[simp] theorem emit_draws (e : SinkEvent) : (emit e s).draws = s.draws := by
  unfold emit; split <;> [rfl; (split <;> rfl)]

theorem emit_ports (e : SinkEvent) (p : Nat) (hs : s.inFlight = some p)
    (hp : s.ports[p]? = some port) :
    (emit e s).ports = s.ports.set p (port.emit e) := by
  simp [emit, hs, hp]

@[simp] theorem resetPorts_length (count d : Nat) : (resetPorts count d).length = count := by
  induction count generalizing d with
  | zero => rfl
  | succ more ih => simp [resetPorts, ih]

/-- Every port just after reset is a reset port, with a draw of its own. -/
theorem resetPorts_getElem? (count d p : Nat) (hp : p < count) :
    (resetPorts count d)[p]? = some (Port.reset (d + p)) := by
  induction count generalizing d p with
  | zero => omega
  | succ more ih =>
    cases p with
    | zero => simp [resetPorts]
    | succ q =>
      have := ih (d + 1) q (by omega)
      simp only [resetPorts, List.getElem?_cons_succ, this]
      congr 2; omega

end Sys2Proof.Machine
end

