-- ==== Sys2Proof/Laws/Ops.lean ====
section
/-! SUPPORT. One lemma per shared operation that says once everything it can do, and the one form of
all four meanings built on them. -/

namespace Sys2Proof.Machine

/-- `finish` answers a next state exactly when the port in flight exists, and then it is this one. -/
theorem finish_eq_next_iff (u : Port → Port) (s t : State) :
    finish u s = .next t ↔
      ∃ p port, s.inFlight = some p ∧ s.ports[p]? = some port ∧
        t = { s with ports := s.ports.set p (u port), inFlight := none, draws := s.draws + 1 } := by
  unfold finish
  cases hf : s.inFlight with
  | none => simp
  | some p =>
    cases hp : s.ports[p]? with
    | none => simp [hp]
    | some port => simp [hp, eq_comm]

/-- `finish` where the port in flight exists. -/
theorem finish_next (u : Port → Port) (s : State) (p : Nat) (port : Port)
    (hf : s.inFlight = some p) (hp : s.ports[p]? = some port) :
    finish u s =
      .next { s with ports := s.ports.set p (u port), inFlight := none, draws := s.draws + 1 } :=
  (finish_eq_next_iff u s _).2 ⟨p, port, hf, hp, rfl⟩

/-- `finish` never refuses. -/
theorem finish_not_refused (u : Port → Port) (s : State) (r : Refusal) :
    finish u s ≠ .refused r := by
  unfold finish
  split
  · simp
  · split <;> simp

/-- Emitting an event and then completing is completing once, with the event put out first. -/
theorem finish_emit (u : Port → Port) (e : SinkEvent) (s : State) :
    finish u (emit e s) = finish (fun port => u (port.emit e)) s := by
  unfold finish
  cases hf : s.inFlight with
  | none => simp [hf]
  | some p =>
    cases hp : s.ports[p]? with
    | none => simp [emit, hf, hp]
    | some port =>
      have hlt : p < s.ports.length := (List.getElem?_eq_some_iff.1 hp).1
      have hg : s.ports[p] = port := (List.getElem?_eq_some_iff.1 hp).2
      simp [hf, emit_ports s port e p hf hp, hlt, hg]

/-- What a transaction of operation `i` does to its port: the event and response put out, the response
lines and the recorded fault, with draw `d` for the undefined fields. -/
def Port.serve (b : Build) (d : Nat) (i : Instr) (port : Port) : Port :=
  match i with
  | .charToCode ch => port.respond i (codeResponse d (lookup b ch).code)
  | .encode ch =>
    (port.emit (.enc ch (lookup b ch).code)).respond i (successResponse d (lookup b ch).found)
  | .codeToChar code =>
    if magicInRange code then port.respond i (charResponse d (magicLookup b code))
    else (port.recordFault code).respond i (faultResponse d)
  | .decode code =>
    if magicInRange code then
      (port.emit (.dec code (magicLookup b code))).respond i (successResponse d true)
    else (port.recordFault code).respond i (faultResponse d)

/-- Every meaning is one completion of the transaction in flight: the inversion of `exec`. -/
theorem exec_eq_finish (i : Instr) (s : State) :
    exec i s = finish (Port.serve s.build s.draws i) s := by
  cases i with
  | charToCode ch => rfl
  | encode ch => simp only [exec, execEncode, respond, finish_emit]; rfl
  | codeToChar code =>
    by_cases h : magicInRange code = true <;>
      simp [exec, execCodeToChar, respond, raiseDecodeFault, h] <;>
      (congr 1; funext port; simp [Port.serve, h])
  | decode code =>
    by_cases h : magicInRange code = true <;>
      simp [exec, execDecode, respond, raiseDecodeFault, finish_emit, h] <;>
      (congr 1; funext port; simp [Port.serve, h])

/-- What `exec` answers where the transaction's port exists. -/
theorem exec_next (i : Instr) (s : State) (p : Nat) (port : Port) (hf : s.inFlight = some p)
    (hp : s.ports[p]? = some port) :
    exec i s =
      .next { s with
        ports := s.ports.set p (port.serve s.build s.draws i), inFlight := none,
        draws := s.draws + 1 } := by
  rw [exec_eq_finish, finish_next _ s p port hf hp]

/-- What `fetchRequest` finds, in its three cases. -/
theorem fetchRequest_cases (s : State) :
    (s.requests = [] ∧ fetchRequest s = .idle) ∨
    (∃ r rest i, s.requests = r :: rest ∧ decodeRequest r.word = .instr i ∧
      fetchRequest s = .begun i { s with requests := rest, inFlight := some r.port }) ∨
    (∃ r rest, s.requests = r :: rest ∧ decodeRequest r.word = .rejected .reservedOperand ∧
      fetchRequest s = .reserved r.word) := by
  unfold fetchRequest
  cases hr : s.requests with
  | nil => simp
  | cons r rest =>
    cases hd : decodeRequest r.word with
    | instr i => exact .inr (.inl ⟨r, rest, i, rfl, hd, by simp [hd]⟩)
    | rejected e => cases e; exact .inr (.inr ⟨r, rest, rfl, hd, by simp [hd]⟩)

/-- What `step` answers, in its three cases: the inversion every invariant rests on. -/
theorem step_cases (s : State) :
    (s.requests = [] ∧ step s = .next s) ∨
    (∃ r rest i, s.requests = r :: rest ∧ decodeRequest r.word = .instr i ∧
      step s = exec i { s with requests := rest, inFlight := some r.port }) ∨
    (∃ r rest, s.requests = r :: rest ∧ decodeRequest r.word = .rejected .reservedOperand ∧
      step s = .refused (.reservedOperand r.word)) := by
  obtain ⟨h, hf⟩ | ⟨r, rest, i, h, hd, hf⟩ | ⟨r, rest, h, hd, hf⟩ := fetchRequest_cases s
  · exact .inl ⟨h, by simp [step, hf]⟩
  · exact .inr (.inl ⟨r, rest, i, h, hd, by simp [step, hf]⟩)
  · exact .inr (.inr ⟨r, rest, h, hd, by simp [step, hf]⟩)

/-- What `step` answers where a request waits. -/
theorem step_cons (s : State) (r : Request) (rest : List Request) (h : s.requests = r :: rest) :
    step s =
      match decodeRequest r.word with
      | .instr i => exec i { s with requests := rest, inFlight := some r.port }
      | .rejected _ => .refused (.reservedOperand r.word) := by
  unfold step fetchRequest
  simp only [h]
  cases hd : decodeRequest r.word with
  | instr i => simp
  | rejected e => cases e; simp

end Sys2Proof.Machine
end

