-- ==== Sys2Proof/Laws/PerInstr.lean ====
section
/-! SUPPORT. The family `EncodedLegal`: every instruction is well formed and its request word is one of
the legal words of 30_encoding.md R73, with the operation select of R68. -/

namespace Sys2Proof.Laws

/-- The operation select of each instruction (30 R68). -/
def operationSelect (i : Instr) : BitVec 2 :=
  match i with
  | .charToCode _ => 0#2
  | .encode _ => 1#2
  | .codeToChar _ => 2#2
  | .decode _ => 3#2

/-- The instruction is well formed, and its word is legal with its own operation select. -/
def EncodedLegal.Statement (i : Instr) : Prop :=
  i.wellFormed = true ∧ requestLegal (encodeRequest i) = true ∧
    requestOp (encodeRequest i) = operationSelect i

theorem EncodedLegal.charToCode (ch : Character) : EncodedLegal.Statement (.charToCode ch) := by
  refine ⟨rfl, ?_, requestOp_requestWord _ _⟩
  simp [requestLegal, requestReservedByte_eq, encodeRequest, requestOperand_requestWord,
    characterOperand_upper]

theorem EncodedLegal.encode (ch : Character) : EncodedLegal.Statement (.encode ch) := by
  refine ⟨rfl, ?_, requestOp_requestWord _ _⟩
  simp [requestLegal, requestReservedByte_eq, encodeRequest, requestOperand_requestWord,
    characterOperand_upper]

theorem EncodedLegal.codeToChar (code : Code) : EncodedLegal.Statement (.codeToChar code) := by
  refine ⟨rfl, ?_, requestOp_requestWord _ _⟩
  simp [requestLegal, encodeRequest, requestOp_requestWord]

theorem EncodedLegal.decode (code : Code) : EncodedLegal.Statement (.decode code) := by
  refine ⟨rfl, ?_, requestOp_requestWord _ _⟩
  simp [requestLegal, encodeRequest, requestOp_requestWord]

end Sys2Proof.Laws
end

