-- ==== Sys2Proof/Laws/Safety.lean ====
section
/-! SUPPORT. What a transaction adds to its port, the append lemmas of the observation functions, the
invariant as its parts, and a run in terms of the host's machine. -/

namespace Sys2Proof.Machine

/-- One more step of a run of any machine the host reads. -/
theorem run_succ (M : Host.Core) (more : Nat) (s : M.State) :
    Host.Core.run M (more + 1) s =
      match M.step s with
      | .next t => Host.Core.run M more t
      | .fault r => .fault r
      | .refused r => .refused r := rfl

/-- The host's run of the machine is `runFor`. -/
theorem core_run_eq_runFor (k : Nat) (s : State) : Host.Core.run core k s = runFor k s := by
  induction k generalizing s with
  | zero => rfl
  | succ more ih =>
    refine (run_succ core more s).trans ?_
    have step_eq : core.step s = step s := rfl
    rw [step_eq, runFor]
    cases step s with
    | next t => exact ih t
    | fault r => rfl
    | refused r => rfl

@[simp] theorem State.served_build (s : State) (p : Nat) (port : Port) :
    (s.served p port).build = s.build := rfl
@[simp] theorem State.served_ports (s : State) (p : Nat) (port : Port) :
    (s.served p port).ports = s.ports.set p port := rfl
@[simp] theorem State.served_requests (s : State) (p : Nat) (port : Port) :
    (s.served p port).requests = s.requests := rfl
@[simp] theorem State.served_inFlight (s : State) (p : Nat) (port : Port) :
    (s.served p port).inFlight = none := rfl
@[simp] theorem State.served_draws (s : State) (p : Nat) (port : Port) :
    (s.served p port).draws = s.draws + 1 := rfl

/-- What `exec` answers where the transaction's port exists. -/
theorem exec_eq_served (i : Instr) (s : State) (p : Nat) (port : Port) (hf : s.inFlight = some p)
    (hp : s.ports[p]? = some port) :
    exec i s = .next (s.served p (port.serve s.build s.draws i)) :=
  exec_next i s p port hf hp

/-- Everything a served transaction adds to its port: outputs that are observed as the rules say and
conform by themselves, the faults of the operation, and the last response on the response lines. -/
theorem Port.serve_adds (b : Build) (d : Nat) (i : Instr) (port : Port) :
    ∃ added, (port.serve b d i).outputs = port.outputs ++ added ∧
      observeOutputs none added = [expectedObservation b i] ∧ outputsConform b added = true ∧
      outputFaults added = expectedFaults i ∧
      (port.serve b d i).faults = port.faults ++ expectedFaults i ∧
      ∀ r, lastResponse r added = (port.serve b d i).response := by
  have one (r : Response) (ho : observeResponse none i r = expectedObservation b i)
      (h : (port.serve b d i).outputs = port.outputs ++ [.response i r])
      (hf : (port.serve b d i).faults = port.faults ++ expectedFaults i)
      (hr : (port.serve b d i).response = r) :
      ∃ added, (port.serve b d i).outputs = port.outputs ++ added ∧
        observeOutputs none added = [expectedObservation b i] ∧ outputsConform b added = true ∧
        outputFaults added = expectedFaults i ∧
        (port.serve b d i).faults = port.faults ++ expectedFaults i ∧
        ∀ r', lastResponse r' added = (port.serve b d i).response :=
    ⟨_, h, by simp [observeOutputs, ho], by simp [outputsConform, ho], by simp [outputFaults], hf,
      fun r' => by simp [lastResponse, hr]⟩
  have two (e : SinkEvent) (r : Response)
      (ho : observeResponse (some e) i r = expectedObservation b i)
      (h : (port.serve b d i).outputs = port.outputs ++ [.sink e, .response i r])
      (hf : (port.serve b d i).faults = port.faults ++ expectedFaults i)
      (hr : (port.serve b d i).response = r) :
      ∃ added, (port.serve b d i).outputs = port.outputs ++ added ∧
        observeOutputs none added = [expectedObservation b i] ∧ outputsConform b added = true ∧
        outputFaults added = expectedFaults i ∧
        (port.serve b d i).faults = port.faults ++ expectedFaults i ∧
        ∀ r', lastResponse r' added = (port.serve b d i).response :=
    ⟨_, h, by simp [observeOutputs, ho], by simp [outputsConform, ho], by simp [outputFaults], hf,
      fun r' => by simp [lastResponse, hr]⟩
  cases i with
  | charToCode ch =>
    exact one (codeResponse d (lookup b ch).code) (by simp [observeResponse, expectedObservation])
      rfl (by simp [Port.serve, expectedFaults]) rfl
  | encode ch =>
    exact two (.enc ch (lookup b ch).code) (successResponse d (lookup b ch).found)
      (by simp [observeResponse, expectedObservation]) (by simp [Port.serve])
      (by simp [Port.serve, expectedFaults]) rfl
  | codeToChar code =>
    by_cases h : magicInRange code = true
    · exact one (charResponse d (magicLookup b code))
        (by simp [observeResponse, expectedObservation, h]) (by simp [Port.serve, h])
        (by simp [Port.serve, expectedFaults, h]) (by simp [Port.serve, h])
    · exact one (faultResponse d) (by simp [observeResponse, expectedObservation, h])
        (by simp [Port.serve, h]) (by simp [Port.serve, expectedFaults, h])
        (by simp [Port.serve, h])
  | decode code =>
    by_cases h : magicInRange code = true
    · exact two (.dec code (magicLookup b code)) (successResponse d true)
        (by simp [observeResponse, expectedObservation, h]) (by simp [Port.serve, h])
        (by simp [Port.serve, expectedFaults, h]) (by simp [Port.serve, h])
    · exact one (faultResponse d) (by simp [observeResponse, expectedObservation, h])
        (by simp [Port.serve, h]) (by simp [Port.serve, expectedFaults, h])
        (by simp [Port.serve, h])

/-- Conforming outputs leave no event waiting: what follows is judged by itself. -/
theorem outputsConform_append (b : Build) : ∀ xs ys : List Output, outputsConform b xs = true →
    outputsConform b (xs ++ ys) = outputsConform b ys
  | [], _, _ => rfl
  | .response i r :: rest, ys, h => by
    simp only [outputsConform, Bool.and_eq_true] at h
    simp only [List.cons_append, outputsConform, h.1, Bool.true_and]
    exact outputsConform_append b rest ys h.2
  | .sink e :: .response i r :: rest, ys, h => by
    simp only [outputsConform, Bool.and_eq_true] at h
    simp only [List.cons_append, outputsConform, h.1, Bool.true_and]
    exact outputsConform_append b rest ys h.2
  | .sink _ :: .sink _ :: _, _, h => by simp [outputsConform] at h
  | [.sink _], _, h => by simp [outputsConform] at h

/-- Conforming outputs are observed apart from what follows. -/
theorem observeOutputs_append (b : Build) : ∀ xs ys : List Output, outputsConform b xs = true →
    observeOutputs none (xs ++ ys) = observeOutputs none xs ++ observeOutputs none ys
  | [], _, _ => rfl
  | .response i r :: rest, ys, h => by
    simp only [outputsConform, Bool.and_eq_true] at h
    simp only [List.cons_append, observeOutputs, observeOutputs_append b rest ys h.2]
  | .sink e :: .response i r :: rest, ys, h => by
    simp only [outputsConform, Bool.and_eq_true] at h
    simp only [List.cons_append, observeOutputs, observeOutputs_append b rest ys h.2]
  | .sink _ :: .sink _ :: _, _, h => by simp [outputsConform] at h
  | [.sink _], _, h => by simp [outputsConform] at h

theorem outputFaults_append (xs ys : List Output) :
    outputFaults (xs ++ ys) = outputFaults xs ++ outputFaults ys := by
  induction xs with
  | nil => rfl
  | cons x rest ih => cases x <;> simp [outputFaults, ih]

theorem lastResponse_append (xs ys : List Output) (r : Response) :
    lastResponse r (xs ++ ys) = lastResponse (lastResponse r xs) ys := by
  induction xs generalizing r with
  | nil => rfl
  | cons x rest ih => cases x <;> simp [lastResponse, ih]

/-- A served port still conforms. -/
theorem Port.serve_conforms (b : Build) (d : Nat) (i : Instr) (port : Port)
    (h : port.conforms b = true) : (port.serve b d i).conforms b = true := by
  simp only [Port.conforms, Bool.and_eq_true, beq_iff_eq] at *
  obtain ⟨added, ho, -, hc, hf, hr, hl⟩ := Port.serve_adds b d i port
  rw [ho, hr]
  exact ⟨⟨by rw [outputsConform_append b _ _ h.1.1, hc], by rw [outputFaults_append, hf, ← h.1.2]⟩,
    by rw [lastResponse_append, hl]⟩

/-- The invariant as its five parts. -/
theorem State.inv_iff (s : State) :
    s.inv = true ↔
      s.build.wf = true ∧ 1 ≤ s.ports.length ∧ (∀ port ∈ s.ports, port.conforms s.build = true) ∧
      (∀ r ∈ s.requests, r.port < s.ports.length) ∧ s.inFlight = none := by
  simp only [State.inv, State.requestsOnPorts, Bool.and_eq_true, List.all_eq_true,
    decide_eq_true_eq, beq_iff_eq]
  tauto

/-- What a step answers where the next request decodes and its port exists. -/
theorem step_served (s : State) (r : Request) (rest : List Request) (i : Instr) (port : Port)
    (hr : s.requests = r :: rest) (hd : decodeRequest r.word = .instr i)
    (hp : s.ports[r.port]? = some port) :
    step s =
      .next { s with
        ports := s.ports.set r.port (port.serve s.build s.draws i), requests := rest,
        inFlight := none, draws := s.draws + 1 } := by
  have h : step s = exec i { s with requests := rest, inFlight := some r.port } := by
    simp [step, fetchRequest, hr, hd]
  rw [h, exec_next i { s with requests := rest, inFlight := some r.port } r.port port rfl hp]

/-- A legal request on a port that exists completes as the rules say, in every state. -/
theorem State.completes_of_lt (s : State) (r : Request) (i : Instr) (h : r.port < s.ports.length)
    (hd : decodeRequest r.word = .instr i) : s.completes r i := by
  have hp : s.ports[r.port]? = some s.ports[r.port] := by simp [h]
  obtain ⟨added, ho, he, -, -, hf, -⟩ := Port.serve_adds s.build s.draws i s.ports[r.port]
  exact ⟨_, _, _, added, step_served (issueFirst r s) r s.requests i _ rfl hd hp, hp,
    by simp [h], ho, he, hf⟩

end Sys2Proof.Machine
end

