-- ==== Sys2Proof/Tests/Slice0.lean ====
section
/-! SUPPORT. Tests of the model on fixed values taken from 95_test_vectors.md (rows named in each
comment), the smoke tests of the well-formedness checks, and a witness for the hypotheses of each
statement. -/

namespace Sys2Proof.Tests

-- One declaration after another: the kernel evaluations side by side take more memory than there is.
set_option Elab.async false

open Sys2Proof.Machine

/-! ### Helpers -/

/-- The build of the test instance T0 (95 section 0). -/
def testBuild : Build := assembleBuild testTables

/-- A port that has put out nothing, its response lines at fixed values. -/
def testPort : Port :=
  { response := { status := .ok, codeOut := 0#16, chOut := 0#8, success := false }
    outputs := []
    faults := [] }

/-- Two ports and T0, with the given requests waiting. -/
def waiting (requests : List Request) : State :=
  { build := testBuild, ports := [testPort, testPort], requests := requests, inFlight := none,
    draws := 2 }

/-- Two ports and T0, with a transaction in flight on port `p`. -/
def serving (p : Nat) : State :=
  { build := testBuild, ports := [testPort, testPort], requests := [], inFlight := some p,
    draws := 2 }

/-- What an answer shows at a port: its observation and its recorded faults. -/
def seenAt (p : Nat) (o : Host.Outcome State Fault Refusal) :
    Option (List Observed × List DecodeFault) :=
  match o with
  | .next t => some (t.observation p, t.recordedFaults p)
  | .fault _ => none
  | .refused _ => none

/-- The answer's refusal, if it is one. -/
def refusalOf (o : Host.Outcome State Fault Refusal) : Option Refusal :=
  match o with
  | .next _ => none
  | .fault _ => none
  | .refused r => some r

/-! ### Decoding, words written out bit by bit (opcode_table.json; E1, E19, K1, K27) -/

theorem test_decode_charToCode :
    decodeRequest 0b00_00000000_01000001#18 = .instr (.charToCode 0x41#8) := by decide
theorem test_decode_encode :
    decodeRequest 0b01_00000000_01010011#18 = .instr (.encode 0x53#8) := by decide
theorem test_decode_codeToChar :
    decodeRequest 0b10_0100000000000010#18 = .instr (.codeToChar 0x4002#16) := by decide
theorem test_decode_decode :
    decodeRequest 0b11_1111100000000101#18 = .instr (.decode 0xF805#16) := by decide
/-- X3, X4. -/
theorem test_decode_reserved :
    decodeRequest 0x08000#18 = .rejected .reservedOperand ∧
    decodeRequest 0x10100#18 = .rejected .reservedOperand := by decide
theorem test_decodeTableWord :
    decodeTableWord 24 0x10053 = some (.encode 0x53#8) ∧ decodeTableWord 24 0x00141 = none ∧
    decodeTableWord 24 0x40041 = none := by decide

/-! ### The operations (95 part 2; T0) -/

/-- E46: '/' is a key twice, the first entry wins. -/
theorem test_charToCode_first_match :
    seenAt 1 (exec (.charToCode 0x2F#8) (serving 1)) = some (
      [{ event := none, status := .ok, codeOut := some 0x9005#16, chOut := none, success := none }],
      []) := by decide +kernel
/-- E26: 'Z', the last letter. -/
theorem test_charToCode_last_letter :
    seenAt 0 (exec (.charToCode 0x5A#8) (serving 0)) = some (
      [{ event := none, status := .ok, codeOut := some 0xC004#16, chOut := none, success := none }],
      []) := by decide +kernel
/-- E38: 'e' is found, with `ERROR_CODE`. -/
theorem test_encode_error_prosign :
    seenAt 1 (exec (.encode 0x65#8) (serving 1)) = some (
      [{ event := some (.enc 0x65#8 0x0007#16), status := .ok, codeOut := none, chOut := none,
         success := some true }], []) := by decide +kernel
/-- E45: '[' lies just above 'Z' and has no mapping in T0. -/
theorem test_encode_no_mapping :
    seenAt 1 (exec (.encode 0x5B#8) (serving 1)) = some (
      [{ event := some (.enc 0x5B#8 0x0007#16), status := .ok, codeOut := none, chOut := none,
         success := some false }], []) := by decide +kernel
/-- K47: the largest index in range, 255. -/
theorem test_codeToChar_largest_index :
    seenAt 0 (exec (.codeToChar 0xF9FF#16) (serving 0)) = some (
      [{ event := none, status := .ok, codeOut := none, chOut := some 0x2A#8, success := none }],
      []) := by decide +kernel
/-- K49: n = 6 with bit 10 set, index 262. -/
theorem test_codeToChar_out_of_range :
    seenAt 0 (exec (.codeToChar 0x0406#16) (serving 0)) = some (
      [{ event := none, status := .fault, codeOut := none, chOut := none, success := none }],
      [{ code := 0x0406#16, idx := 262#10 }]) := by decide +kernel
/-- K46: bits 10..3 set at n = 2 are not read. -/
theorem test_decode_unread_bits :
    seenAt 1 (exec (.decode 0x47FA#16) (serving 1)) = some (
      [{ event := some (.dec 0x47FA#16 0x41#8), status := .ok, codeOut := none, chOut := none,
         success := some true }], []) := by decide +kernel
/-- K53: n = 7 with bit 10 clear and bit 9 set, index 767; no sink event. -/
theorem test_decode_out_of_range :
    seenAt 1 (exec (.decode 0xFBFF#16) (serving 1)) = some (
      [{ event := none, status := .fault, codeOut := none, chOut := none, success := none }],
      [{ code := 0xFBFF#16, idx := 767#10 }]) := by decide +kernel
/-- X1: a reserved operand byte is refused. -/
theorem test_step_refuses :
    refusalOf (step (waiting [⟨0, 0x00141#18⟩])) = some (.reservedOperand 0x00141#18) := by
  decide +kernel
/-- P6, first step of port 1 of two: the other port is untouched. -/
theorem test_step_other_port :
    seenAt 0 (step (waiting [⟨1, 0x30001#18⟩])) = some ([], []) ∧
    seenAt 1 (step (waiting [⟨1, 0x30001#18⟩])) = some (
      [{ event := some (.dec 0x0001#16 0x45#8), status := .ok, codeOut := none, chOut := none,
         success := some true }], []) := by decide +kernel

/-! ### Index identities and spellings (95 section 2.2, W1 to W3) -/

theorem test_magicIndex_identities :
    magicIndex 0x3006#16 = 102#10 ∧ magicIndex 0x0207#16 = 519#10 ∧ magicIndex 0x0407#16 = 263#10 ∧
    magicIndex 0xFFFE#16 = 510#10 ∧ magicIndex 0xFFFF#16 = 1023#10 := by decide +kernel
/-- W3: '?' is `..--..`. -/
theorem test_spell_question :
    spell 0x3006#16 = [.dit, .dit, .dah, .dah, .dit, .dit] ∧
    pack [.dit, .dit, .dah, .dah, .dit, .dit] = some 0x3006#16 := by decide
/-- 30 R75's example lines, and a character literal that is not quotable. -/
theorem test_assemble_lines :
    Assembler.assemble ['c', 'o', 'd', 'e', '_', 't', 'o', '_', 'c', 'h', 'a', 'r', ' ', '0', 'x', 'F',
      '8', '0', '5'] = some 0x2F805#18 ∧
    Assembler.assemble (Assembler.encodeName ++ [' ', '0', 'x', '0', '0']) = some 0x10000#18 ∧
    Assembler.assemble (Assembler.encodeName ++
      [' ', Assembler.apostrophe, Assembler.backslash, Assembler.apostrophe]) = none := by
  decide +kernel
/-- The block's build evaluates where the spec fixes it: reset, then `decode 0xF805` on port 0 (K27). -/
theorem test_reset_decode_zero :
    seenAt 0 (step (State.reset.withFetchWord 24 0x3F805)) = some (
      [{ event := some (.dec 0xF805#16 0x30#8), status := .ok, codeOut := none, chOut := none,
         success := some true }], []) := by decide +kernel

/-! ### Smoke tests of the checks: a well-formed term, and an ill-formed one for each check -/

theorem smoke_requestLegal :
    requestLegal 0x000FF#18 = true ∧ requestLegal 0x3FFFF#18 = true ∧
    requestLegal 0x00100#18 = false ∧ requestLegal 0x1FF41#18 = false := by decide
theorem smoke_request :
    Request.wellFormed 2 ⟨1, 0x10053#18⟩ = true ∧ Request.wellFormed 2 ⟨2, 0x10053#18⟩ = false ∧
    Request.wellFormed 2 ⟨1, 0x08000#18⟩ = false := by decide
theorem smoke_testBuild : testBuild.wf = true ∧ usesDefaultTables testBuild = true := by
  decide +kernel

/-- T0 with another `PUNCT_ROM`. -/
def withPunct (rom : List PunctEntry) : Build := { testBuild with punctRom := rom }

theorem smoke_directCodesStored :
    Build.directCodesStored { testBuild with letterRom := testBuild.letterRom.set 4 0x0006#16 } = false
    ∧ Build.directCodesStored { testBuild with digitRom := testBuild.digitRom.set 5 0x000D#16 } = false
      := by decide +kernel
theorem smoke_sourceCodes :
    Build.sourceCodes { testBuild with letterRom := testBuild.letterRom.set 0 0x4003#16 } = false ∧
    Build.sourceCodes { testBuild with digitRom := testBuild.digitRom.set 0 0xF804#16 } = false := by
  decide +kernel
theorem smoke_punctQuestion :
    Build.punctQuestion (withPunct [⟨0x3F#8, 0x3005#16⟩, ⟨0x3F#8, 0x3006#16⟩]) = false := by
  decide +kernel
theorem smoke_punctProsigns :
    Build.punctProsigns (withPunct [⟨0x65#8, 0x0007#16⟩, ⟨0x69#8, 0x0005#16⟩, ⟨0x75#8, 0x1005#16⟩])
      = false := by decide +kernel
theorem smoke_punctError :
    Build.punctError (withPunct [⟨0x65#8, 0x0006#16⟩, ⟨0x65#8, 0x0007#16⟩]) = false := by
  decide +kernel
theorem smoke_punctCodesStored :
    Build.punctCodesStored (withPunct [⟨0x3F#8, 0x3000#16⟩]) = false ∧
    Build.punctCodesStored (withPunct [⟨0x3F#8, 0x3406#16⟩]) = false := by decide +kernel
theorem smoke_punctKeysPrintable :
    Build.punctKeysPrintable (withPunct [⟨0x1F#8, 0x3006#16⟩]) = false ∧
    Build.punctKeysPrintable (withPunct [⟨0x7F#8, 0x3006#16⟩]) = false := by decide +kernel
theorem smoke_errorStored :
    Build.errorStored { testBuild with errorCode := 0x8000#16 } = false := by decide +kernel
theorem smoke_errorDecodes :
    Build.errorDecodes { testBuild with errorCode := 0x0006#16 } = false := by decide +kernel
theorem smoke_lettersDecode :
    Build.lettersDecode { testBuild with magicRom := testBuild.magicRom.set 28 0x2A#8 } = false := by
  decide +kernel
theorem smoke_digitsDecode :
    Build.digitsDecode { testBuild with magicRom := testBuild.magicRom.set 125 0x2A#8 } = false := by
  decide +kernel
theorem smoke_punctDecode :
    Build.punctDecode (withPunct [⟨0x2F#8, 0x9005#16⟩, ⟨0x3A#8, 0x9005#16⟩]) = false := by
  decide +kernel

/-! ### Witnesses: the hypotheses of each statement are met together -/

theorem witness_StepRunsDecodedRequest :
    (waiting [⟨1, 0x10053#18⟩]).requests = ⟨1, 0x10053#18⟩ :: [] ∧
    decodeRequest 0x10053#18 = .instr (.encode 0x53#8) := by decide
theorem witness_StepWithoutRequestIsIdle : (waiting []).requests = [] := rfl
theorem witness_ReservedOperandIsRefused :
    ((0x00100#18).extractLsb' 16 2 = 0#2 ∧ (0x00100#18).extractLsb' 8 8 ≠ 0#8) ∧
    ((0x1FFFF#18).extractLsb' 16 2 = 1#2 ∧ (0x1FFFF#18).extractLsb' 8 8 ≠ 0#8) ∧
    (waiting [⟨0, 0x00100#18⟩]).requests = ⟨0, 0x00100#18⟩ :: [] := by decide
theorem witness_DecodeReadsBackEncodedInstruction : (Instr.decode 0xFFFF#16).wellFormed = true := rfl
theorem witness_EncodedDecodeIsTheRequestWord :
    decodeRequest 0x2FFFF#18 = .instr (.codeToChar 0xFFFF#16) := by decide
theorem witness_RequestSpaceIsLegalOrReserved :
    (0x4002#16).extractLsb' 11 5 = (0x41FA#16).extractLsb' 11 5 ∧
    symbolTotal 0x4002#16 = symbolTotal 0x41FA#16 ∧
    ((0xF8FF#16).extractLsb' 11 5 = (0xF807#16).extractLsb' 11 5 ∧ symbolTotal 0xF8FF#16 = 7 ∧
      (0xF8FF#16).getLsbD 10 = (0xF807#16).getLsbD 10 ∧
      (0xF8FF#16).getLsbD 9 = (0xF807#16).getLsbD 9) := by decide
theorem witness_OperationAndOperandFields :
    ((0x000FF#18).extractLsb' 16 2 = 0#2 ∧ (0x000FF#18).extractLsb' 8 8 = 0#8) ∧
    ((0x100FF#18).extractLsb' 16 2 = 1#2 ∧ (0x100FF#18).extractLsb' 8 8 = 0#8) ∧
    (0x2FFFF#18).extractLsb' 16 2 = 2#2 ∧ (0x3FFFF#18).extractLsb' 16 2 = 3#2 := by decide
theorem witness_PlacedTableWordRunsNext :
    decodeTableWord 24 0x3FFFF = some (.decode 0xFFFF#16) ∧
    (requestWordOf 24 0x1FFFF = some 0x1FFFF#18 ∧ decodeTableWord 24 0x1FFFF = none) ∧
    2 ^ 18 ≤ 0x40000 % 2 ^ 24 := by decide
theorem witness_AssemblerLineGivesRequestWord :
    Assembler.assemble (Assembler.decodeName ++ [' ', '0', 'x', 'F', 'F', 'F', 'F'])
      = some 0x3FFFF#18 := by decide +kernel
theorem witness_SpellingOfPackedCode :
    (1 ≤ [Symbol.dah].length ∧ [Symbol.dah].length ≤ 7) ∧
    (1 ≤ (List.replicate 7 Symbol.dah).length ∧ (List.replicate 7 Symbol.dah).length ≤ 7) ∧
    ¬ (1 ≤ ([] : List Symbol).length ∧ ([] : List Symbol).length ≤ 7) ∧
    ¬ (1 ≤ (List.replicate 8 Symbol.dit).length ∧ (List.replicate 8 Symbol.dit).length ≤ 7) := by
  decide
theorem witness_RomCodesEndInDits :
    testBuild.wf = true ∧ 0xC004#16 ∈ testBuild.letterRom.toList ∧
    0xF805#16 ∈ testBuild.digitRom.toList ∧
    (∃ entry ∈ testBuild.punctRom, entry.code = 0x3006#16) ∧ 0x0007#16 = testBuild.errorCode := by
  decide +kernel
theorem witness_UnreadCodeBitsDoNotMatter :
    symbolTotal 0x4002#16 = symbolTotal 0x47FA#16 ∧
    (∀ i, i < symbolTotal 0x4002#16 →
      (0x4002#16).getLsbD (15 - i) = (0x47FA#16).getLsbD (15 - i)) ∧
    symbolTotal 0x0207#16 = symbolTotal 0x03FF#16 := by decide
theorem witness_LettersAndDigitsReadDirectly :
    classify 0x41#8 = .letter ∧ classify 0x5A#8 = .letter ∧ classify 0x30#8 = .digit ∧
    classify 0x39#8 = .digit := by decide
theorem witness_OtherCharactersTakeFirstMatch :
    (classify 0x2F#8 = .other ∧ testBuild.punctRom[5]? = some ⟨0x2F#8, 0x9005#16⟩ ∧
      (∀ earlier ∈ testBuild.punctRom.take 5, earlier.key ≠ 0x2F#8)) ∧
    (classify 0x40#8 = .other ∧ ∀ entry ∈ testBuild.punctRom, entry.key ≠ 0x40#8) := by
  decide +kernel
theorem witness_FoundMeansTableEntry : (lookup testBuild 0x3A#8).found = false := by decide +kernel
theorem witness_LowercaseIsNotFolded :
    (0x61 ≤ (0x61#8 : Character).toNat ∧ (0x61#8 : Character).toNat ≤ 0x7A ∧
      ∀ entry ∈ testBuild.punctRom, entry.key ≠ 0x61#8) ∧
    (0x61 ≤ (0x7A#8 : Character).toNat ∧ (0x7A#8 : Character).toNat ≤ 0x7A) := by decide +kernel
theorem witness_EncoderOutputCodes : testBuild.wf = true ∧ classify 0x39#8 = .digit := by
  decide +kernel
theorem witness_PunctuationCorners :
    testBuild.wf = true ∧ (0x1F#8 : Character).toNat < 0x20 ∧ 0x7E < (0x7F#8 : Character).toNat := by
  decide +kernel
theorem witness_CharToCodeAnswersLookup :
    ((serving 1).inFlight = some 1 ∧ (serving 1).ports[1]? = some testPort) ∧
    ((waiting [⟨0, 0x000FF#18⟩]).requests = [⟨0, 0x000FF#18⟩] ∧ (0x000FF#18).extractLsb' 16 2 = 0#2) ∧
    (classify 0x40#8 = .other ∧ ∀ entry ∈ testBuild.punctRom, entry.key ≠ 0x40#8) ∧
    (0x1F#8 : Character).toNat ≤ 0x1F ∧ 0x7F ≤ (0x7F#8 : Character).toNat ∧
    (classify 0x2F#8 = .other ∧ testBuild.punctRom[5]? = some ⟨0x2F#8, 0x9005#16⟩ ∧
      ∀ earlier ∈ testBuild.punctRom.take 5, earlier.key ≠ 0x2F#8) ∧
    testBuild.wf = true := by
  decide +kernel
theorem witness_EncodeDeliversLookup :
    ((serving 0).inFlight = some 0 ∧ (serving 0).ports[0]? = some testPort) ∧
    ((waiting [⟨0, 0x10141#18⟩]).requests = [⟨0, 0x10141#18⟩] ∧ (0x10141#18).extractLsb' 16 2 = 1#2) ∧
    (classify 0x5B#8 = .other ∧ ∀ entry ∈ testBuild.punctRom, entry.key ≠ 0x5B#8) ∧
    classify 0x5A#8 = .letter ∧ testBuild.wf = true ∧ usesDefaultTables testBuild = true := by
  decide +kernel
theorem witness_CodeToCharAnswersMagicEntry :
    ((serving 1).inFlight = some 1 ∧ (serving 1).ports[1]? = some testPort) ∧
    (magicIndex 0xF9FF#16).toNat ≤ 255 ∧ 255 < (magicIndex 0x0406#16).toNat ∧
    ((waiting [⟨1, 0x2FFFF#18⟩]).requests = [⟨1, 0x2FFFF#18⟩] ∧ (0x2FFFF#18).extractLsb' 16 2 = 2#2) ∧
    symbolTotal 0xFFF8#16 = 0 ∧
    (6 ≤ symbolTotal 0x3006#16 ∧ (0x3006#16).getLsbD 10 = false ∧ (0x3006#16).getLsbD 9 = false) ∧
    testBuild.wf = true := by decide +kernel
theorem witness_DecodeDeliversMagicEntry :
    ((serving 1).inFlight = some 1 ∧ (serving 1).ports[1]? = some testPort) ∧
    (magicIndex 0xF9FF#16).toNat ≤ 255 ∧ 255 < (magicIndex 0x0406#16).toNat ∧
    ((waiting [⟨1, 0x3FFFF#18⟩]).requests = [⟨1, 0x3FFFF#18⟩] ∧ (0x3FFFF#18).extractLsb' 16 2 = 3#2) ∧
    symbolTotal 0xFFF8#16 = 0 ∧
    (6 ≤ symbolTotal 0xF9FF#16 ∧ (0xF9FF#16).getLsbD 10 = false ∧ (0xF9FF#16).getLsbD 9 = false) ∧
    testBuild.wf = true := by decide +kernel
theorem witness_OutOfRangeDecodeFaults :
    (serving 0).inFlight = some 0 ∧ (serving 0).ports[0]? = some testPort ∧
    255 < (magicIndex 0x0406#16).toNat ∧ 255 < (magicIndex 0xFFFF#16).toNat ∧
    1 < (serving 0).ports.length ∧ decodeRequest 0x23006#18 = .instr (.codeToChar 0x3006#16) := by
  decide +kernel
theorem witness_NoMappingCompletesNormally :
    (serving 0).inFlight = some 0 ∧ (serving 0).ports[0]? = some testPort ∧
    classify 0x00#8 = .other ∧ ∀ entry ∈ (serving 0).build.punctRom, entry.key ≠ 0x00#8 := by
  decide +kernel
theorem witness_OperationsCompleteAsTabled :
    (serving 1).inFlight = some 1 ∧ (serving 1).ports[1]? = some testPort := by decide
theorem witness_SinkEventsPerOperation :
    (serving 1).inFlight = some 1 ∧ (serving 1).ports[1]? = some testPort ∧
    seenAt 1 (exec (.decode 0x0001#16) (serving 1)) ≠ none ∧
    seenAt 1 (exec (.decode 0xFFFF#16) (serving 1)) ≠ none ∧
    (magicIndex 0x0001#16).toNat ≤ 255 ∧ ¬ (magicIndex 0xFFFF#16).toNat ≤ 255 := by decide +kernel
theorem witness_CountIsNotValidated :
    (serving 1).inFlight = some 1 ∧ (serving 1).ports[1]? = some testPort ∧
    symbolTotal 0xFFF8#16 = 0 ∧ symbolTotal 0xFFFD#16 = 5 ∧
    (symbolTotal 0xFBFE#16 = 6 ∧ (0xFBFE#16).getLsbD 10 = false) ∧
    (symbolTotal 0xF9FF#16 = 7 ∧ (0xF9FF#16).getLsbD 10 = false ∧ (0xF9FF#16).getLsbD 9 = false) := by
  decide
theorem witness_OperationFrame :
    seenAt 0 (exec (.charToCode 0x41#8) (serving 0)) ≠ none ∧
    seenAt 0 (exec (.encode 0x41#8) (serving 0)) ≠ none ∧
    seenAt 0 (exec (.codeToChar 0xFFFF#16) (serving 0)) ≠ none ∧
    seenAt 0 (exec (.decode 0x4002#16) (serving 0)) ≠ none := by decide +kernel
theorem witness_EncoderAndDecoderAreIndependent :
    seenAt 0 (exec (.encode 0x41#8) (serving 0)) ≠ none ∧
    seenAt 0 (exec (.charToCode 0x41#8) (serving 0)) ≠ none ∧
    seenAt 0 (exec (.decode 0x4002#16) (serving 0)) ≠ none ∧
    seenAt 0 (exec (.codeToChar 0xFFFF#16) (serving 0)) ≠ none ∧
    (withPunct []).magicRom = (serving 0).build.magicRom := by
  refine ⟨?_, ?_, ?_, ?_, rfl⟩ <;> decide +kernel
theorem witness_RoundTripGivesCharacterBack :
    (serving 0).build.wf = true ∧ (serving 1).build = (serving 0).build ∧
    (serving 0).inFlight = some 0 ∧ (serving 0).ports[0]? = some testPort ∧
    (serving 1).inFlight = some 1 ∧ (serving 1).ports[1]? = some testPort ∧
    classify 0x5A#8 = .letter ∧ classify 0x39#8 = .digit ∧
    ((∃ entry ∈ (serving 0).build.punctRom, entry.key = 0x2F#8) ∧ (0x2F#8 : Character) ≠ 0x69#8 ∧
      (0x2F#8 : Character) ≠ 0x75#8 ∧ (0x2F#8 : Character) ≠ 0x77#8) := by
  refine ⟨?_, rfl, ?_⟩ <;> decide +kernel
theorem witness_AliasesDecodeAsConfigured :
    (serving 0).build.wf = true ∧ (serving 1).build = (serving 0).build ∧
    (serving 0).inFlight = some 0 ∧ (serving 0).ports[0]? = some testPort ∧
    (serving 1).inFlight = some 1 ∧ (serving 1).ports[1]? = some testPort ∧
    testBuild.aliasDecode 0x69#8 = some 0x4B#8 := by
  refine ⟨?_, rfl, ?_⟩ <;> decide +kernel
theorem witness_AbsentCharacterDecodesToE :
    (serving 0).build.wf = true ∧ (serving 1).build = (serving 0).build ∧
    (serving 0).inFlight = some 0 ∧ (serving 0).ports[0]? = some testPort ∧
    (serving 1).inFlight = some 1 ∧ (serving 1).ports[1]? = some testPort ∧
    classify 0x40#8 = .other ∧ ∀ entry ∈ (serving 0).build.punctRom, entry.key ≠ 0x40#8 := by
  refine ⟨?_, rfl, ?_⟩ <;> decide +kernel
theorem witness_EncoderOutputNeverFaults :
    (serving 0).build.wf = true ∧ (serving 0).inFlight = some 0 ∧
    (serving 0).ports[0]? = some testPort := by decide +kernel
/-- The statements whose one hypothesis is an admissible build with the default tables:
`SourceExamples`, `ErrorCodeConstraints`, `FixedMagicEntries`, `PunctuationTableConstraints`,
`AssembledBuildIsGeneral`. -/
theorem witness_AdmissibleBuild : testBuild.wf = true ∧ usesDefaultTables testBuild = true := by
  decide +kernel
theorem witness_RunsNeverChangeRoms :
    seenAt 0 (runFor 2 (waiting [⟨0, 0x10053#18⟩, ⟨1, 0x3FFFF#18⟩])) ≠ none := by decide +kernel
theorem witness_RequestAfterResetCompletesAlike :
    1 < (waiting []).ports.length ∧ decodeRequest 0x20406#18 = .instr (.codeToChar 0x0406#16) := by
  decide
theorem witness_StepKeepsInvariant :
    (waiting [⟨1, 0x10053#18⟩]).inv = true ∧ seenAt 1 (step (waiting [⟨1, 0x10053#18⟩])) ≠ none := by
  decide +kernel
/-- The hypotheses of `StepNeverStopsWithFault`, and both sides of its second clause. -/
theorem witness_StepNeverStopsWithFault :
    (waiting [⟨1, 0x000FF#18⟩]).inv = true ∧ requestLegal 0x000FF#18 = true ∧
    (waiting [⟨1, 0x00100#18⟩]).inv = true ∧ requestLegal 0x00100#18 = false := by decide +kernel
theorem witness_RunAnswersEachPortsProgram :
    (waiting [⟨1, 0x10053#18⟩, ⟨0, 0x3FFFF#18⟩, ⟨1, 0x00030#18⟩]).inv = true ∧
    (waiting [⟨1, 0x10053#18⟩, ⟨0, 0x3FFFF#18⟩, ⟨1, 0x00030#18⟩]).requestsLegal = true ∧
    (waiting [⟨1, 0x10053#18⟩, ⟨0, 0x3FFFF#18⟩, ⟨1, 0x00030#18⟩]).requests.length ≤ 3 := by
  decide +kernel
/-- Another order of the requests of `witness_RunAnswersEachPortsProgram`, with the same program at
every port. -/
theorem witness_InterleavingDoesNotMatter (p : Nat) :
    State.program { waiting [⟨1, 0x10053#18⟩, ⟨0, 0x3FFFF#18⟩, ⟨1, 0x00030#18⟩] with
        requests := [⟨1, 0x10053#18⟩, ⟨1, 0x00030#18⟩, ⟨0, 0x3FFFF#18⟩] } p
      = (waiting [⟨1, 0x10053#18⟩, ⟨0, 0x3FFFF#18⟩, ⟨1, 0x00030#18⟩]).program p := by
  match p with
  | 0 => rfl
  | 1 => rfl
  | q + 2 => simp [State.program, waiting]
theorem witness_RefusedRequestsAreMarkedAndSkipped :
    (waiting [⟨0, 0x00141#18⟩, ⟨0, 0x10045#18⟩]).inv = true ∧
    (waiting [⟨0, 0x00141#18⟩, ⟨0, 0x10045#18⟩]).requests.length ≤ 2 := by decide +kernel
/-- P5, steps 2 and 3: the refused request is marked, and the next one gives its outputs. -/
theorem test_run_marks_refusal :
    (runMarked 2 [] (waiting [⟨0, 0x00141#18⟩, ⟨0, 0x10045#18⟩])).map
        (fun run => (run.refused, run.state.observation 0))
      = some ([0x00141#18],
          [{ event := some (.enc 0x45#8 0x0001#16), status := .ok, codeOut := none, chOut := none,
             success := some true }]) := by decide +kernel
theorem witness_PortsAreIndependent :
    (waiting [⟨1, 0x10053#18⟩]).requests = ⟨1, 0x10053#18⟩ :: [] ∧
    seenAt 1 (step (waiting [⟨1, 0x10053#18⟩])) ≠ none := by decide +kernel
theorem witness_EarlierTransactionLeavesNoTrace :
    (waiting [⟨0, 0x20406#18⟩, ⟨0, 0x23006#18⟩]).requests = ⟨0, 0x20406#18⟩ :: ⟨0, 0x23006#18⟩ :: [] ∧
    seenAt 0 (step (waiting [⟨0, 0x20406#18⟩, ⟨0, 0x23006#18⟩])) ≠ none ∧
    0 < (waiting []).ports.length ∧ decodeRequest 0x23006#18 = .instr (.codeToChar 0x3006#16) := by
  decide +kernel

end Sys2Proof.Tests
end

section
/-! The inversions of `exec` and of `step` on a waiting request, in terms of `State.served`, and the
sink stream of a port after each update of it. -/

namespace Sys2Proof.Machine

/-- The port a completed transaction leaves where it was served. -/
theorem State.served_port_same (s : State) (p : Nat) (port port' : Port)
    (hp : s.ports[p]? = some port) : (s.served p port').ports[p]? = some port' := by
  have hlt : p < s.ports.length := (List.getElem?_eq_some_iff.1 hp).1
  simp [hlt]

/-- A completed transaction leaves every other port as it was. -/
theorem State.served_port_other (s : State) (p q : Nat) (port : Port) (hq : q ≠ p) :
    (s.served p port).ports[q]? = s.ports[q]? := by
  simp [List.getElem?_set_ne hq.symm]

/-- An operation answers a next state exactly when its port exists, and then that port is served. -/
theorem exec_eq_next_iff (i : Instr) (s t : State) :
    exec i s = .next t ↔
      ∃ p port, s.inFlight = some p ∧ s.ports[p]? = some port ∧
        t = s.served p (port.serve s.build s.draws i) := by
  rw [exec_eq_finish, finish_eq_next_iff]
  rfl

/-- With a request waiting, a step answers a next state exactly when the word decodes and the port
exists, and then the request is taken and its port served. -/
theorem step_eq_next_iff (s t : State) (r : Request) (rest : List Request)
    (hr : s.requests = r :: rest) :
    step s = .next t ↔
      ∃ i port, decodeRequest r.word = .instr i ∧ s.ports[r.port]? = some port ∧
        t = State.served { s with requests := rest } r.port (port.serve s.build s.draws i) := by
  rw [step_cons s r rest hr]
  cases hd : decodeRequest r.word with
  | rejected e => simp
  | instr i =>
    simp only [exec_eq_next_iff, Decoded.instr.injEq, Option.some.injEq]
    constructor
    · rintro ⟨p, port, rfl, hp, ht⟩
      exact ⟨i, port, rfl, hp, ht⟩
    · rintro ⟨j, port, rfl, hp, ht⟩
      exact ⟨r.port, port, rfl, hp, ht⟩

@[simp] theorem Port.emit_sinkStream (port : Port) (e : SinkEvent) :
    (port.emit e).sinkStream = port.sinkStream ++ [e] := by
  simp [Port.sinkStream]
@[simp] theorem Port.respond_sinkStream (port : Port) (i : Instr) (r : Response) :
    (port.respond i r).sinkStream = port.sinkStream := by
  simp [Port.sinkStream]
@[simp] theorem Port.recordFault_sinkStream (port : Port) (code : Code) :
    (port.recordFault code).sinkStream = port.sinkStream := rfl

end Sys2Proof.Machine
end

section
/-! The block's ports: the sink events each operation puts out (10 R27) and the independence of the
ports from one another (10 R29). -/

namespace Sys2Proof.Machine

/-- Settles O34: the port after the transaction is the served one, and each operation's service of
a port says which event it puts out before its response. -/
theorem sinkEventsPerOperation : Obligations.SinkEventsPerOperation := by
  intro s t p port port' i hf hp hexec hp'
  obtain rfl : port' = port.serve s.build s.draws i := by
    rw [exec_eq_served i s p port hf hp, Host.Outcome.next.injEq] at hexec
    rw [← hexec, s.served_port_same p port _ hp] at hp'
    exact (Option.some.inj hp').symm
  cases i with
  | charToCode ch => simp [Port.serve]
  | encode ch => simp [Port.serve]
  | codeToChar code =>
    by_cases h : magicInRange code = true
    · simp [Port.serve, h]
    · simp [Port.serve, h]
  | decode code =>
    by_cases h : (magicIndex code).toNat ≤ 255
    · simp [Port.serve, magicInRange, h]
    · simp [Port.serve, magicInRange, h]

/-- Settles O59: a step sets the request's own port and no other, to a value that depends on that
port, the build, the draw counter and the operation only. -/
theorem portsAreIndependent : Obligations.PortsAreIndependent := by
  refine ⟨?_, by simp [Config.numPorts]⟩
  intro s s' t r rest hr hstep hbuild hrequests hdraws hport
  obtain ⟨i, port, hd, hp, rfl⟩ := (step_eq_next_iff s t r rest hr).1 hstep
  have hp' : s'.ports[r.port]? = some port := hport.trans hp
  have hstep' := (step_eq_next_iff s' _ r rest (hrequests.trans hr)).2 ⟨i, port, hd, hp', rfl⟩
  refine ⟨fun q hq => State.served_port_other _ _ _ _ hq, _, hstep', ?_⟩
  rw [hbuild, hdraws]
  exact (State.served_port_same _ _ port _ hp').trans (State.served_port_same _ _ port _ hp).symm

end Sys2Proof.Machine
end

section
/-! Runs from the invariant (20 R49, R50; 70 R198). What a port is to have shown when the run ends is a
quantity every completed transaction conserves: the operation leaves the port's request program and its
observation takes its place. -/

namespace Sys2Proof.Machine

/-- A legal request word decodes to an operation (30 R73). -/
theorem decodeRequest_of_legal (w : RequestWord) (h : requestLegal w = true) :
    ∃ i, decodeRequest w = .instr i := by
  have character (operation : Character → Instr) (hop : requestOp w = 0#2 ∨ requestOp w = 1#2) :
      ∃ i, decodeCharacter operation (requestOperand w) = .instr i := by
    have hz : (requestOperand w).extractLsb' 8 8 = 0#8 := by
      rcases hop with hop | hop <;> simpa [requestLegal, hop, requestReservedByte_eq] using h
    exact ⟨_, if_pos hz⟩
  rcases requestOp_cases w with hop | hop | hop | hop
  · simpa [decodeRequest, hop] using character .charToCode (.inl hop)
  · simpa [decodeRequest, hop] using character .encode (.inr hop)
  · simp [decodeRequest, hop]
  · simp [decodeRequest, hop]

/-- A service adds the operation's faults to those recorded at its port. -/
@[simp] theorem Port.serve_faults (b : Build) (d : Nat) (i : Instr) (port : Port) :
    (port.serve b d i).faults = port.faults ++ expectedFaults i := by
  obtain ⟨_, -, -, -, -, hfaults, -⟩ := port.serve_adds b d i
  exact hfaults

/-- A service of a port with no event waiting adds the operation's observation to the port's. -/
theorem Port.serve_observed (b : Build) (d : Nat) (i : Instr) (port : Port)
    (hc : port.conforms b = true) :
    observeOutputs none (port.serve b d i).outputs =
      observeOutputs none port.outputs ++ [expectedObservation b i] := by
  obtain ⟨added, houtputs, hobserved, -⟩ := port.serve_adds b d i
  simp only [Port.conforms, Bool.and_eq_true] at hc
  obtain ⟨⟨hconform, -⟩, -⟩ := hc
  rw [houtputs, observeOutputs_append b _ _ hconform, hobserved]

/-- A completed transaction adds its observation at its own port and nothing elsewhere. -/
theorem State.served_observation (s : State) (p q d : Nat) (port : Port) (i : Instr)
    (hp : s.ports[p]? = some port) (hc : port.conforms s.build = true) :
    (s.served p (port.serve s.build d i)).observation q =
      s.observation q ++ if p = q then [expectedObservation s.build i] else [] := by
  by_cases hpq : p = q
  · subst hpq
    simp only [State.observation, s.served_port_same p port _ hp, hp, if_true]
    exact port.serve_observed s.build d i hc
  · simp only [State.observation, s.served_port_other p q _ (Ne.symm hpq), if_neg hpq,
      List.append_nil]

/-- A completed transaction records its faults at its own port and nothing elsewhere. -/
theorem State.served_recordedFaults (s : State) (p q d : Nat) (port : Port) (i : Instr)
    (hp : s.ports[p]? = some port) :
    (s.served p (port.serve s.build d i)).recordedFaults q =
      s.recordedFaults q ++ if p = q then expectedFaults i else [] := by
  by_cases hpq : p = q
  · subst hpq
    simp only [State.recordedFaults, s.served_port_same p port _ hp, hp, if_true, Port.serve_faults]
  · simp only [State.recordedFaults, s.served_port_other p q _ (Ne.symm hpq), if_neg hpq,
      List.append_nil]

/-- A port's program is read from the requests alone, its observation and faults from the ports. -/
@[simp] theorem State.served_program (s : State) (p q : Nat) (port : Port) :
    (s.served p port).program q = s.program q := rfl
@[simp] theorem State.observation_with_requests (s : State) (rest : List Request) (q : Nat) :
    State.observation { s with requests := rest } q = s.observation q := rfl
@[simp] theorem State.recordedFaults_with_requests (s : State) (rest : List Request) (q : Nat) :
    State.recordedFaults { s with requests := rest } q = s.recordedFaults q := rfl

/-- The operations of a port's program, the first request taken apart. -/
theorem programOperations_program (s : State) (r : Request) (rest : List Request) (i : Instr)
    (q : Nat) (hr : s.requests = r :: rest) (hd : decodeRequest r.word = .instr i) :
    programOperations (s.program q) =
      (if r.port = q then [i] else []) ++
        programOperations (State.program { s with requests := rest } q) := by
  by_cases hq : r.port = q <;> simp [State.program, programOperations, hr, hd, hq]

/-- What is to have been observed at a port when the waiting requests have completed. -/
def State.dueObservation (s : State) (p : Nat) : List Observed :=
  s.observation p ++ (programOperations (s.program p)).map (expectedObservation s.build)

/-- The faults to be recorded at a port when the waiting requests have completed. -/
def State.dueFaults (s : State) (p : Nat) : List DecodeFault :=
  s.recordedFaults p ++ (programOperations (s.program p)).flatMap expectedFaults

/-- With no request waiting, everything due has been observed. -/
theorem State.dueObservation_of_ended (s : State) (p : Nat) (h : s.requests = []) :
    s.dueObservation p = s.observation p := by
  simp [State.dueObservation, State.program, programOperations, h]

/-- With no request waiting, every fault due has been recorded. -/
theorem State.dueFaults_of_ended (s : State) (p : Nat) (h : s.requests = []) :
    s.dueFaults p = s.recordedFaults p := by
  simp [State.dueFaults, State.program, programOperations, h]

section
variable (s t : State) (r : Request) (rest : List Request)

/-- A completed transaction takes its request away and leaves the build as it was. -/
theorem step_next_requests_build (hr : s.requests = r :: rest) (h : step s = .next t) :
    t.requests = rest ∧ t.build = s.build := by
  obtain ⟨i, port, -, -, rfl⟩ := (step_eq_next_iff s t r rest hr).1 h
  exact ⟨rfl, rfl⟩

/-- A completed transaction keeps the invariant: its own port is served, and so still conforms, and
the other ports are as before. -/
theorem step_next_inv (hi : s.inv = true) (hr : s.requests = r :: rest) (h : step s = .next t) :
    t.inv = true := by
  obtain ⟨i, port, -, hp, rfl⟩ := (step_eq_next_iff s t r rest hr).1 h
  obtain ⟨hwf, hports, hconf, hon, -⟩ := (State.inv_iff s).1 hi
  refine (State.inv_iff _).2 ⟨hwf, by simpa using hports, ?_, ?_, rfl⟩
  · intro port' hmem
    rcases List.mem_or_eq_of_mem_set hmem with hold | rfl
    · exact hconf _ hold
    · exact port.serve_conforms _ _ _ (hconf _ (List.mem_of_getElem? hp))
  · intro r' hmem
    simpa using hon r' (hr ▸ List.mem_cons_of_mem r hmem)

/-- A completed transaction conserves what is due at every port, its own or another. -/
theorem step_next_due (hi : s.inv = true) (hr : s.requests = r :: rest) (h : step s = .next t)
    (q : Nat) : t.dueObservation q = s.dueObservation q ∧ t.dueFaults q = s.dueFaults q := by
  obtain ⟨i, port, hd, hp, rfl⟩ := (step_eq_next_iff s t r rest hr).1 h
  obtain ⟨-, -, hconf, -, -⟩ := (State.inv_iff s).1 hi
  have hobserved := State.served_observation { s with requests := rest } r.port q s.draws port i hp
    (hconf _ (List.mem_of_getElem? hp))
  have hfaults := State.served_recordedFaults { s with requests := rest } r.port q s.draws port i hp
  have hprogram := programOperations_program s r rest i q hr hd
  constructor
  · simp only [State.dueObservation, hobserved, hprogram, State.served_program]
    by_cases hq : r.port = q <;> simp [hq]
  · simp only [State.dueFaults, hfaults, hprogram, State.served_program]
    by_cases hq : r.port = q <;> simp [hq]

/-- From the invariant, a legal next request completes. -/
theorem step_next_of_legal (hi : s.inv = true) (hr : s.requests = r :: rest)
    (hl : requestLegal r.word = true) : ∃ t, step s = .next t := by
  obtain ⟨-, -, -, hon, -⟩ := (State.inv_iff s).1 hi
  obtain ⟨i, hd⟩ := decodeRequest_of_legal r.word hl
  have hlt : r.port < s.ports.length := hon r (by simp [hr])
  exact ⟨_, step_served s r rest i _ hr hd (List.getElem?_eq_getElem hlt)⟩

end

/-- A run of legal requests that is long enough ends, and what is due at the end is what was due at
the start. -/
theorem runFor_ends (k : Nat) (s : State) (hi : s.inv = true) (hl : s.requestsLegal = true)
    (hk : s.requests.length ≤ k) :
    ∃ t, runFor k s = .next t ∧ t.requests = [] ∧ t.build = s.build ∧
      ∀ p, t.dueObservation p = s.dueObservation p ∧ t.dueFaults p = s.dueFaults p := by
  induction k generalizing s with
  | zero => exact ⟨s, rfl, by simpa using hk, rfl, fun _ => ⟨rfl, rfl⟩⟩
  | succ more ih =>
    cases hr : s.requests with
    | nil =>
      have hidle : step s = .next s := by simp [step, fetchRequest, hr]
      simpa [runFor, hidle] using ih s hi hl (by simp [hr])
    | cons r rest =>
      simp only [State.requestsLegal, hr, List.all_cons, Bool.and_eq_true] at hl
      obtain ⟨u, hu⟩ := step_next_of_legal s r rest hi hr hl.1
      obtain ⟨hrest, hbuild⟩ := step_next_requests_build s u r rest hr hu
      have hlen : u.requests.length ≤ more := by simpa [hr, hrest] using hk
      have hlegal : u.requestsLegal = true := by rw [State.requestsLegal, hrest]; exact hl.2
      obtain ⟨t, hrun, hend, hb, hdue⟩ := ih u (step_next_inv s u r rest hi hr hu) hlegal hlen
      have hstep := step_next_due s u r rest hi hr hu
      refine ⟨t, by simpa [runFor, hu] using hrun, hend, hb.trans hbuild, fun p => ?_⟩
      exact ⟨(hdue p).1.trans (hstep p).1, (hdue p).2.trans (hstep p).2⟩

/-- Settles O56: every step conserves what is due at each port, and at the end of the run, with no
request left, what is due is what has been observed. -/
theorem runAnswersEachPortsProgram : Obligations.RunAnswersEachPortsProgram := by
  intro s k hi hl hk
  obtain ⟨t, hrun, hend, hbuild, hdue⟩ := runFor_ends k s hi hl hk
  refine ⟨t, hrun, by simp [State.runEnded, hend], hbuild, fun p => ⟨?_, ?_⟩⟩
  · exact (t.dueObservation_of_ended p hend).symm.trans (hdue p).1
  · exact (t.dueFaults_of_ended p hend).symm.trans (hdue p).2

end Sys2Proof.Machine
end

section
/-! The request decoder in the fields of the request word (30 R68 to R70, R73): what each `OP` decodes
to, and exactly which words are reserved. -/

namespace Sys2Proof

/-- The low byte of the operand is the low byte of the word. -/
theorem requestOperand_lower (w : RequestWord) :
    (requestOperand w).extractLsb' 0 8 = w.extractLsb' 0 8 := by
  apply BitVec.eq_of_getLsbD_eq
  intro k _
  simp [requestOperand]

/-- A character request by the bytes of its word. -/
theorem decodeCharacter_requestOperand (operation : Character → Instr) (w : RequestWord) :
    decodeCharacter operation (requestOperand w) =
      if requestReservedByte w = 0#8 then .instr (operation (w.extractLsb' 0 8))
      else .rejected .reservedOperand := by
  rw [decodeCharacter, requestReservedByte_eq, requestOperand_lower]

section
variable (w : RequestWord)

theorem decodeRequest_of_op_zero (h : requestOp w = 0#2) :
    decodeRequest w = if requestReservedByte w = 0#8 then .instr (.charToCode (w.extractLsb' 0 8))
      else .rejected .reservedOperand := by
  simp [decodeRequest, h, decodeCharacter_requestOperand]

theorem decodeRequest_of_op_one (h : requestOp w = 1#2) :
    decodeRequest w = if requestReservedByte w = 0#8 then .instr (.encode (w.extractLsb' 0 8))
      else .rejected .reservedOperand := by
  simp [decodeRequest, h, decodeCharacter_requestOperand]

theorem decodeRequest_of_op_two (h : requestOp w = 2#2) :
    decodeRequest w = .instr (.codeToChar (requestOperand w)) := by
  simp [decodeRequest, h]

theorem decodeRequest_of_op_three (h : requestOp w = 3#2) :
    decodeRequest w = .instr (.decode (requestOperand w)) := by
  simp [decodeRequest, h]

/-- The reserved words are the character requests with a nonzero reserved byte (30 R70). -/
theorem decodeRequest_eq_rejected_iff :
    decodeRequest w = .rejected .reservedOperand ↔
      (requestOp w = 0#2 ∨ requestOp w = 1#2) ∧ requestReservedByte w ≠ 0#8 := by
  rcases requestOp_cases w with h | h | h | h
  · simp [decodeRequest_of_op_zero w h, h]
  · simp [decodeRequest_of_op_one w h, h]
  · simp [decodeRequest_of_op_two w h, h]
  · simp [decodeRequest_of_op_three w h, h]

/-- The legal words are those of a code operation, and of a character operation with a zero reserved
byte (30 R73). -/
theorem exists_decodeRequest_eq_instr_iff :
    (∃ i, decodeRequest w = .instr i) ↔
      (requestOp w = 2#2 ∨ requestOp w = 3#2) ∨
        ((requestOp w = 0#2 ∨ requestOp w = 1#2) ∧ requestReservedByte w = 0#8) := by
  rcases requestOp_cases w with h | h | h | h
  · by_cases hbyte : requestReservedByte w = 0#8 <;> simp [decodeRequest_of_op_zero w h, h, hbyte]
  · by_cases hbyte : requestReservedByte w = 0#8 <;> simp [decodeRequest_of_op_one w h, h, hbyte]
  · simp [decodeRequest_of_op_two w h, h]
  · simp [decodeRequest_of_op_three w h, h]

end

/-- Settles O7: each `OP` has its own equation of the decoder. -/
theorem operationAndOperandFields : Obligations.OperationAndOperandFields := fun w =>
  ⟨decodeRequest_of_op_zero w, decodeRequest_of_op_one w, decodeRequest_of_op_two w,
    decodeRequest_of_op_three w⟩

end Sys2Proof
end

section
/-! A step on a reserved request word (30 R70), and the completion of every operation (30 R71). -/

namespace Sys2Proof.Machine

/-- Settles O3: such a word is rejected by the decoder, and a step refuses what the decoder rejects. -/
theorem reservedOperandIsRefused : Obligations.ReservedOperandIsRefused := by
  intro s r rest hr hop hbyte
  have hd : decodeRequest r.word = .rejected .reservedOperand :=
    (decodeRequest_eq_rejected_iff r.word).2 ⟨hop, hbyte⟩
  simp [step_cons s r rest hr, hd]

/-- Settles O33: `exec` serves the port in flight, and `Port.serve_adds` says what a service adds. -/
theorem operationsCompleteAsTabled : Obligations.OperationsCompleteAsTabled := by
  intro s p port i hf hp
  obtain ⟨added, houtputs, hobserved, -, -, hfaults, -⟩ := port.serve_adds s.build s.draws i
  exact ⟨_, _, added, exec_eq_served i s p port hf hp, s.served_port_same p port _ hp, houtputs,
    hobserved, hfaults⟩

end Sys2Proof.Machine
end

section
/-! Which bits of a code its magic index reads (41 R130): the count and the symbols the count reaches.
The other bits are ignored on decode (30 R73). -/

namespace Sys2Proof.Machine

/-- The count is a 3-bit field (30 R60). -/
theorem symbolTotal_le_seven (code : Code) : symbolTotal code ≤ 7 :=
  Nat.le_of_lt_succ (symbolCount code).isLt

/-- Step 2 of 41 R130 gives the count. -/
theorem magicBase_eq_symbolTotal (code : Code) : magicBase code = symbolTotal code := by
  have hcount : symbolTotal code = code.toNat % 8 := by simp [symbolTotal, symbolCount]
  simp only [magicBase, hcount, BitVec.getLsbD, Nat.toNat_testBit]
  omega

/-- Step 3 of 41 R130 reads the first `n` symbols only. -/
theorem magicAccumulate_congr (code code' : Code) (n idx : Nat)
    (h : ∀ i, i < n → symbolAt code i = symbolAt code' i) :
    magicAccumulate code n idx = magicAccumulate code' n idx := by
  refine List.foldl_ext _ _ _ fun acc i hi => ?_
  rw [h i (List.mem_range.1 hi)]

/-- Codes with the same count and the same symbols within it have the same magic index. -/
theorem magicIndex_eq_of_symbols (code code' : Code) (hn : symbolTotal code = symbolTotal code')
    (h : ∀ i, i < symbolTotal code → symbolAt code i = symbolAt code' i) :
    magicIndex code = magicIndex code' := by
  have hsum : magicSum code = magicSum code' := by
    simp only [magicSum, magicBase_eq_symbolTotal, ← hn]
    exact magicAccumulate_congr code code' _ _ h
  rw [magicIndex, magicIndex, hsum]

/-- The first five symbols are bits [15:11] of the code (30 R60). -/
theorem symbolAt_eq_of_upper_bits (code code' : Code)
    (h : code.extractLsb' 11 5 = code'.extractLsb' 11 5) (i : Nat) (hi : i < 5) :
    symbolAt code i = symbolAt code' i := by
  have hbit := congrArg (fun bits => bits.getLsbD (4 - i)) h
  have hlt : 4 - i < 5 := by omega
  have hplace : 11 + (4 - i) = 15 - i := by omega
  simpa [symbolAt, hlt, hplace] using hbit

/-- Settles O6: the decoder's two cases by the fields of the word; and symbols 5 and 6 of a code,
bits 10 and 9, are read only where the count reaches them. -/
theorem requestSpaceIsLegalOrReserved : Obligations.RequestSpaceIsLegalOrReserved := by
  refine ⟨fun w => ⟨exists_decodeRequest_eq_instr_iff w, decodeRequest_eq_rejected_iff w⟩, ?_⟩
  intro code code' hupper hn hten hnine
  refine magicIndex_eq_of_symbols code code' hn fun i hi => ?_
  have hle := symbolTotal_le_seven code
  obtain hi5 | rfl | rfl : i < 5 ∨ i = 5 ∨ i = 6 := by omega
  · exact symbolAt_eq_of_upper_bits code code' hupper i hi5
  · exact hten (by omega)
  · exact hnine (by omega)

end Sys2Proof.Machine
end

section
/-! The encoder's lookup as one equation per class of character (40 R100 to R104, R107): the class
ranges, the two direct reads, and the scan as the library's search for the first entry with a key. -/

namespace Sys2Proof.Machine

section
variable (ch : Character)

theorem classify_eq_letter_iff : classify ch = .letter ↔ 0x41 ≤ ch.toNat ∧ ch.toNat ≤ 0x5A := by
  unfold classify
  split_ifs with hletter hdigit <;> simp [hletter]

theorem classify_eq_digit_iff : classify ch = .digit ↔ 0x30 ≤ ch.toNat ∧ ch.toNat ≤ 0x39 := by
  unfold classify
  split_ifs with hletter hdigit
  · simp only [false_iff]
    omega
  · simp [hdigit]
  · simp [hdigit]

theorem classify_eq_other_iff :
    classify ch = .other ↔
      ¬ (0x41 ≤ ch.toNat ∧ ch.toNat ≤ 0x5A) ∧ ¬ (0x30 ≤ ch.toNat ∧ ch.toNat ≤ 0x39) := by
  rw [← classify_eq_letter_iff, ← classify_eq_digit_iff]
  cases classify ch <;> simp

/-- A lowercase letter is beyond both ranges (40 R107). -/
theorem classify_of_lowercase (hlow : 0x61 ≤ ch.toNat) : classify ch = .other :=
  (classify_eq_other_iff ch).2 ⟨by omega, by omega⟩

/-- A character outside the printable ones is in neither range. -/
theorem classify_of_not_printable (h : ch.toNat ≤ 0x1F ∨ 0x7F ≤ ch.toNat) : classify ch = .other :=
  (classify_eq_other_iff ch).2 ⟨by omega, by omega⟩

end

/-- Settles O20. -/
theorem characterClassRanges : Obligations.CharacterClassRanges := fun ch =>
  ⟨classify_eq_letter_iff ch, classify_eq_digit_iff ch, classify_eq_other_iff ch⟩

/-- The scan of 40 R103 is the library's search for the first entry that meets a test. -/
theorem firstKeyed_eq_find? (rom : List PunctEntry) (ch : Character) :
    firstKeyed rom ch = (rom.find? fun entry => entry.key = ch).map PunctEntry.code := by
  induction rom with
  | nil => rfl
  | cons entry rest ih => by_cases h : entry.key = ch <;> simp [firstKeyed, h, ih]

section
variable (b : Build) (ch : Character)

theorem scan_of_absent (h : ∀ entry ∈ b.punctRom, entry.key ≠ ch) :
    scan b ch = { code := b.errorCode, found := false } := by
  have hnone : firstKeyed b.punctRom ch = none := by simpa [firstKeyed_eq_find?] using h
  simp [scan, hnone]

theorem scan_of_first_match (j : Nat) (entry : PunctEntry) (hj : b.punctRom[j]? = some entry)
    (hkey : entry.key = ch)
    (hfirst : ∀ (k : Nat) (earlier : PunctEntry),
      k < j → b.punctRom[k]? = some earlier → earlier.key ≠ ch) :
    scan b ch = { code := entry.code, found := true } := by
  obtain ⟨hlt, hget⟩ := List.getElem?_eq_some_iff.1 hj
  have hfind : b.punctRom.find? (fun entry => entry.key = ch) = some entry :=
    List.find?_eq_some_iff_getElem.2 ⟨by simpa using hkey, j, hlt, hget, fun k hk => by
      simpa using hfirst k _ hk (List.getElem?_eq_getElem (hk.trans hlt))⟩
  simp [scan, firstKeyed_eq_find?, hfind]

theorem scan_found_iff : (scan b ch).found = true ↔ ∃ entry ∈ b.punctRom, entry.key = ch := by
  constructor
  · intro hfound
    by_contra hkey
    rw [scan_of_absent b ch fun entry hmem heq => hkey ⟨entry, hmem, heq⟩] at hfound
    cases hfound
  · rintro ⟨entry, hmem, hkey⟩
    have hsome : (firstKeyed b.punctRom ch).isSome := by
      simpa [firstKeyed_eq_find?] using ⟨entry, hmem, hkey⟩
    obtain ⟨code, hcode⟩ := Option.isSome_iff_exists.1 hsome
    simp [scan, hcode]

theorem lookup_of_letter (h : classify ch = .letter) :
    lookup b ch = { code := b.readLetter (letterIndex ch), found := true } := by
  simp [lookup, h]

theorem lookup_of_digit (h : classify ch = .digit) :
    lookup b ch = { code := b.readDigit (digitIndex ch), found := true } := by
  simp [lookup, h]

theorem lookup_of_other (h : classify ch = .other) : lookup b ch = scan b ch := by
  simp [lookup, h]

theorem lookup_of_absent (h : classify ch = .other) (habsent : ∀ entry ∈ b.punctRom, entry.key ≠ ch) :
    lookup b ch = { code := b.errorCode, found := false } :=
  (lookup_of_other b ch h).trans (scan_of_absent b ch habsent)

/-- The subtraction of 40 R101 does not wrap for a letter. -/
theorem letter_offset (h : classify ch = .letter) :
    0x41 ≤ ch.toNat ∧ (ch - 0x41#8).toNat = ch.toNat - 0x41 ∧ ch.toNat - 0x41 ≤ 25 := by
  obtain ⟨hlow, hhigh⟩ := (classify_eq_letter_iff ch).1 h
  exact ⟨hlow, BitVec.toNat_sub_of_le hlow, by omega⟩

/-- The subtraction of 40 R102 does not wrap for a digit. -/
theorem digit_offset (h : classify ch = .digit) :
    0x30 ≤ ch.toNat ∧ (ch - 0x30#8).toNat = ch.toNat - 0x30 ∧ ch.toNat - 0x30 ≤ 9 := by
  obtain ⟨hlow, hhigh⟩ := (classify_eq_digit_iff ch).1 h
  exact ⟨hlow, BitVec.toNat_sub_of_le hlow, by omega⟩

/-- The index reduction of `letterIndex` does not act on a letter: the code is the table's own entry. -/
theorem letterRom_getElem?_of_letter (h : classify ch = .letter) :
    b.letterRom.toList[ch.toNat - 0x41]? = some (lookup b ch).code := by
  obtain ⟨-, hoffset, hle⟩ := letter_offset ch h
  have hlt : ch.toNat - 0x41 < 26 := by omega
  simp [lookup_of_letter b ch h, Build.readLetter, letterIndex, hoffset, Vector.get_eq_getElem,
    Nat.mod_eq_of_lt hlt, hlt]

/-- The index reduction of `digitIndex` does not act on a digit: the code is the table's own entry. -/
theorem digitRom_getElem?_of_digit (h : classify ch = .digit) :
    b.digitRom.toList[ch.toNat - 0x30]? = some (lookup b ch).code := by
  obtain ⟨-, hoffset, hle⟩ := digit_offset ch h
  have hlt : ch.toNat - 0x30 < 10 := by omega
  simp [lookup_of_digit b ch h, Build.readDigit, digitIndex, hoffset, Vector.get_eq_getElem,
    Nat.mod_eq_of_lt hlt, hlt]

/-- What `found` means (40 R104): the two direct reads always supply a code, the scan where it has
the key. -/
theorem lookup_found_iff :
    (lookup b ch).found = true ↔
      (classify ch = .letter ∨ classify ch = .digit ∨
        (classify ch = .other ∧ ∃ entry ∈ b.punctRom, entry.key = ch)) := by
  cases h : classify ch with
  | letter => simp [lookup_of_letter b ch h]
  | digit => simp [lookup_of_digit b ch h]
  | other => simp [lookup_of_other b ch h, scan_found_iff]

theorem lookup_not_found (h : (lookup b ch).found = false) :
    classify ch = .other ∧ ∀ entry ∈ b.punctRom, entry.key ≠ ch := by
  have hnot := mt (lookup_found_iff b ch).2 (by simp [h])
  cases hc : classify ch with
  | letter => simp [hc] at hnot
  | digit => simp [hc] at hnot
  | other => simpa [hc] using hnot

end

/-- Settles O21: within the class's range the 8-bit subtraction does not wrap, so the index is the
offset from 'A' or '0'. -/
theorem lettersAndDigitsReadDirectly : Obligations.LettersAndDigitsReadDirectly := by
  refine fun b ch => ⟨fun h => ?_, fun h => ?_⟩
  · obtain ⟨hlow, hoffset, hle⟩ := letter_offset ch h
    rw [hoffset]
    exact ⟨hlow, rfl, hle, letterRom_getElem?_of_letter b ch h⟩
  · obtain ⟨hlow, hoffset, hle⟩ := digit_offset ch h
    rw [hoffset]
    exact ⟨hlow, rfl, hle, digitRom_getElem?_of_digit b ch h⟩

/-- Settles O22: the lookup is the scan, which finds the first match or none. -/
theorem otherCharactersTakeFirstMatch : Obligations.OtherCharactersTakeFirstMatch := by
  intro b ch h
  rw [lookup_of_other b ch h]
  exact ⟨scan_of_first_match b ch, scan_of_absent b ch⟩

/-- Settles O23: a lookup that finds nothing is a scan with no key, whose answer is `ERROR_CODE`. -/
theorem foundMeansTableEntry : Obligations.FoundMeansTableEntry := by
  refine fun b ch => ⟨letterRom_getElem?_of_letter b ch, digitRom_getElem?_of_digit b ch,
    lookup_of_other b ch, lookup_found_iff b ch, fun hnot => ?_⟩
  obtain ⟨hother, habsent⟩ := lookup_not_found b ch hnot
  exact ⟨by rw [lookup_of_absent b ch hother habsent], hother, habsent⟩

/-- Settles O24: a lowercase letter is of class other, and the scan does not read `LETTER_ROM`. -/
theorem lowercaseIsNotFolded : Obligations.LowercaseIsNotFolded := by
  intro b letters ch hlow _
  have hother : classify ch = .other := classify_of_lowercase ch hlow
  have hscan : scan { b with letterRom := letters } ch = scan b ch := rfl
  exact ⟨hother, lookup_of_other b ch hother,
    (lookup_of_other _ ch hother).trans (hscan.trans (lookup_of_other b ch hother).symm),
    lookup_of_absent b ch hother⟩

end Sys2Proof.Machine
end

section
/-! A well-formed build as the constraints on it (70 R193), and those of them the encoder's corner cases
rest on. -/

namespace Sys2Proof.Build

variable (b : Build)

theorem wf_iff :
    b.wf = true ↔
      b.directCodesStored = true ∧ b.sourceCodes = true ∧ b.punctQuestion = true ∧
      b.punctProsigns = true ∧ b.punctError = true ∧ b.punctCodesStored = true ∧
      b.punctKeysPrintable = true ∧ b.errorStored = true ∧ b.errorDecodes = true ∧
      b.lettersDecode = true ∧ b.digitsDecode = true ∧ b.punctDecode = true := by
  simp [wf, and_assoc]

section
variable (hwf : b.wf = true)
include hwf

/-- The source's entry for 'A' (40 R110). -/
theorem readLetter_zero_of_wf : b.readLetter 0 = 0x4002#16 := by
  obtain ⟨-, hsource, -⟩ := b.wf_iff.1 hwf
  simp only [sourceCodes, Bool.and_eq_true, beq_iff_eq] at hsource
  exact hsource.1

/-- The first entry keyed 'e' has `ERROR_CODE` (40 R112). -/
theorem firstKeyed_error_of_wf : firstKeyed b.punctRom 0x65#8 = some b.errorCode := by
  obtain ⟨-, -, -, -, herror, -⟩ := b.wf_iff.1 hwf
  simpa [punctError] using herror

/-- Every key is printable ASCII (40 R112). -/
theorem key_printable_of_wf (entry : PunctEntry) (hmem : entry ∈ b.punctRom) :
    0x20 ≤ entry.key.toNat ∧ entry.key.toNat ≤ 0x7E := by
  obtain ⟨-, -, -, -, -, -, hkeys, -⟩ := b.wf_iff.1 hwf
  simpa using List.all_eq_true.1 hkeys entry hmem

end

end Sys2Proof.Build
end

section
/-! The encoder's operations (40 R105, R106): the step that takes a character request, the port after
the operation, and the lookups the rules give as corner cases and examples. -/

namespace Sys2Proof.Machine

/-- A step on a word that the decoder reads as a character request: the operation is performed, or
the reserved byte refused (30 R70). -/
theorem step_of_character_request (operation : Character → Instr) (s : State) (r : Request)
    (rest : List Request) (hr : s.requests = r :: rest)
    (hd : decodeRequest r.word =
      if requestReservedByte r.word = 0#8 then .instr (operation (r.word.extractLsb' 0 8))
      else .rejected .reservedOperand) :
    step s =
      if requestReservedByte r.word = 0#8 then
        exec (operation (r.word.extractLsb' 0 8)) { s with requests := rest, inFlight := some r.port }
      else .refused (.reservedOperand r.word) := by
  rw [step_cons s r rest hr, hd]
  by_cases hbyte : requestReservedByte r.word = 0#8 <;> simp [hbyte]

/-- The port after `char_to_code`. -/
theorem Port.serve_charToCode (b : Build) (d : Nat) (ch : Character) (port : Port) :
    port.serve b d (.charToCode ch) =
      { response := codeResponse d (lookup b ch).code
        outputs := port.outputs ++ [.response (.charToCode ch) (codeResponse d (lookup b ch).code)]
        faults := port.faults } := rfl

/-- The port after `encode`: the event stands before the response. -/
theorem Port.serve_encode (b : Build) (d : Nat) (ch : Character) (port : Port) :
    port.serve b d (.encode ch) =
      { response := successResponse d (lookup b ch).found
        outputs := port.outputs ++
          [.sink (.enc ch (lookup b ch).code),
            .response (.encode ch) (successResponse d (lookup b ch).found)]
        faults := port.faults } := by
  simp [Port.serve, Port.respond, Port.emit]

section
variable (b : Build) (hwf : b.wf = true)
include hwf

/-- A character that is not printable is no key of a well-formed build (40 R112). -/
theorem lookup_of_not_printable (ch : Character) (h : ch.toNat ≤ 0x1F ∨ 0x7F ≤ ch.toNat) :
    lookup b ch = { code := b.errorCode, found := false } := by
  refine lookup_of_absent b ch (classify_of_not_printable ch h) ?_
  rintro entry hmem rfl
  have hkey := b.key_printable_of_wf hwf entry hmem
  omega

/-- The source's own example of a letter (40 R110). -/
theorem lookup_letter_a : lookup b 0x41#8 = { code := 0x4002#16, found := true } := by
  have hindex : letterIndex 0x41#8 = 0 := by decide
  rw [lookup_of_letter b _ (by decide), hindex, b.readLetter_zero_of_wf hwf]

/-- 'e' is found, with `ERROR_CODE` (40 R112). -/
theorem lookup_error_prosign : lookup b 0x65#8 = { code := b.errorCode, found := true } := by
  rw [lookup_of_other b _ (by decide), scan, b.firstKeyed_error_of_wf hwf]

end

/-- The default letter table's entry for 'S' (40 R110). -/
theorem lookup_letter_s (b : Build) (h : usesDefaultTables b = true) :
    lookup b 0x53#8 = { code := 0x0003#16, found := true } := by
  simp only [usesDefaultTables, Bool.and_eq_true, beq_iff_eq] at h
  rw [lookup_of_letter b _ (by decide), Build.readLetter, h.1]
  decide

/-- Settles O27: `char_to_code` is the request with `OP` 00, its service puts the looked-up code in
the response, and the corner cases are those of the lookup. -/
theorem charToCodeAnswersLookup : Obligations.CharToCodeAnswersLookup := by
  refine ⟨?step, ?exec, fun b ch => ⟨?neighbours, ?lowercase, ?absent, ?unprintable, ?first, ?a⟩⟩
  case step =>
    intro s r rest hr hop
    exact step_of_character_request .charToCode s r rest hr (decodeRequest_of_op_zero _ hop)
  case exec =>
    intro s p port ch hf hp
    exact ⟨codeResponse s.draws (lookup s.build ch).code, rfl, rfl,
      by rw [exec_eq_served _ s p port hf hp, Port.serve_charToCode]⟩
  case neighbours => rintro (rfl | rfl | rfl | rfl) <;> exact lookup_of_other b _ (by decide)
  case lowercase => exact fun hlow _ => lookup_of_other b ch (classify_of_lowercase ch hlow)
  case absent => exact fun hother habsent => by rw [lookup_of_absent b ch hother habsent]
  case unprintable => exact fun hwf h => by rw [lookup_of_not_printable b hwf ch h]
  case first =>
    intro j entry hother hj hkey hfirst
    rw [lookup_of_other b ch hother, scan_of_first_match b ch j entry hj hkey hfirst]
  case a => exact fun hwf => by rw [lookup_letter_a b hwf]

/-- Settles O28: `encode` is the request with `OP` 01, its service puts out the event and then the
response, and the corner cases are those of the lookup. -/
theorem encodeDeliversLookup : Obligations.EncodeDeliversLookup := by
  refine ⟨?step, ?exec, fun b ch => ⟨lookup_of_absent b ch, ?direct, lookup_error_prosign b,
    lookup_letter_s b⟩⟩
  case step =>
    intro s r rest hr hop
    exact step_of_character_request .encode s r rest hr (decodeRequest_of_op_one _ hop)
  case exec =>
    intro s p port ch hf hp
    exact ⟨successResponse s.draws (lookup s.build ch).found, rfl, rfl,
      by rw [exec_eq_served _ s p port hf hp, Port.serve_encode]⟩
  case direct =>
    exact fun h => (lookup_found_iff b ch).2 (h.imp_right .inl)

end Sys2Proof.Machine
end

section
/-! Which tables each operation reads (40 R117): a service depends on the build through `lookup` or
through `magicLookup` alone. -/

namespace Sys2Proof.Machine

section
variable (b other : Build) (d : Nat) (port : Port)

/-- The encoder's two operations read the build through `lookup`. -/
theorem Port.serve_encoder_congr (ch : Character) (i : Instr) (hi : i = .charToCode ch ∨ i = .encode ch)
    (h : lookup other ch = lookup b ch) : port.serve other d i = port.serve b d i := by
  rcases hi with rfl | rfl <;> simp [Port.serve, h]

/-- The decoder's two operations read the build through `magicLookup`. -/
theorem Port.serve_decoder_congr (code : Code) (i : Instr) (hi : i = .codeToChar code ∨ i = .decode code)
    (h : magicLookup other code = magicLookup b code) : port.serve other d i = port.serve b d i := by
  rcases hi with rfl | rfl <;> simp [Port.serve, h]

/-- The encoder's lookup does not read `MAGIC_ROM`. -/
theorem lookup_with_magicRom (rom : Vector Character 256) (ch : Character) :
    lookup { b with magicRom := rom } ch = lookup b ch := rfl

/-- The decoder's lookup reads nothing but `MAGIC_ROM`. -/
theorem magicLookup_congr (h : other.magicRom = b.magicRom) (code : Code) :
    magicLookup other code = magicLookup b code := by
  simp [magicLookup, Build.readMagic, h]

end

/-- An operation whose service is the same under another build answers the same there, but for the
build itself. -/
theorem exec_with_build (s t : State) (other : Build) (i : Instr)
    (hserve : ∀ port : Port, port.serve other s.draws i = port.serve s.build s.draws i)
    (hexec : exec i s = .next t) :
    exec i { s with build := other } = .next { t with build := other } := by
  obtain ⟨p, port, hf, hp, rfl⟩ := (exec_eq_next_iff i s t).1 hexec
  rw [exec_eq_served i { s with build := other } p port hf hp, hserve]
  rfl

/-- Settles O38: the encoder's lookup is the same whatever `MAGIC_ROM` holds, the decoder's whatever
the other tables hold. -/
theorem encoderAndDecoderAreIndependent : Obligations.EncoderAndDecoderAreIndependent := by
  constructor
  · intro s t rom ch i hi hexec
    have hlookup := lookup_with_magicRom s.build rom ch
    exact exec_with_build s t _ i (fun port => port.serve_encoder_congr _ _ _ ch i hi hlookup) hexec
  · intro s t other code i hi hmagic hexec
    have hlookup := magicLookup_congr s.build other hmagic code
    exact exec_with_build s t _ i (fun port => port.serve_decoder_congr _ _ _ code i hi hlookup) hexec

end Sys2Proof.Machine
end

section
/-! The magic index as a sum (41 R130): the count plus the values of the symbols it reaches, and the
bounds on that sum. -/

namespace Sys2Proof.Machine

/-- What step 3 of 41 R130 adds for the first `n` symbols: `8 << i` for every DAH. -/
def symbolSum (code : Code) (n : Nat) : Nat :=
  ((List.range n).map fun i => if symbolAt code i = true then 8 <<< i else 0).sum

section
variable (code : Code)

@[simp] theorem symbolSum_zero : symbolSum code 0 = 0 := rfl

theorem symbolSum_succ (n : Nat) :
    symbolSum code (n + 1) = symbolSum code n + if symbolAt code n = true then 8 <<< n else 0 := by
  simp [symbolSum, List.range_succ]

/-- The accumulation of 41 R130 adds the symbols' values to what it starts from. -/
theorem magicAccumulate_eq_add (n idx : Nat) :
    magicAccumulate code n idx = idx + symbolSum code n := by
  induction n with
  | zero => rfl
  | succ n ih =>
    have hsucc : magicAccumulate code (n + 1) idx =
        magicAccumulate code n idx + if symbolAt code n = true then 8 <<< n else 0 := by
      by_cases h : symbolAt code n = true <;> simp [magicAccumulate, List.range_succ, h]
    rw [hsucc, ih, symbolSum_succ, Nat.add_assoc]

theorem magicSum_eq_add : magicSum code = symbolTotal code + symbolSum code (symbolTotal code) := by
  rw [magicSum, magicAccumulate_eq_add, magicBase_eq_symbolTotal]

/-- The largest value of `n` symbols, all of them DAH. -/
theorem symbolSum_le (n : Nat) : symbolSum code n ≤ 8 * (2 ^ n - 1) := by
  induction n with
  | zero => simp
  | succ n ih =>
    have hpos : 0 < 2 ^ n := Nat.two_pow_pos n
    rw [symbolSum_succ, Nat.shiftLeft_eq, Nat.pow_succ]
    split_ifs <;> omega

/-- A DIT adds nothing: where the symbols from `m` on are DITs, the first `m` give the sum. -/
theorem symbolSum_eq_of_dits (m n : Nat) (hmn : m ≤ n)
    (hdit : ∀ i, m ≤ i → i < n → symbolAt code i = false) : symbolSum code n = symbolSum code m := by
  induction n, hmn using Nat.le_induction with
  | base => rfl
  | succ n hmn ih =>
    have hn : symbolAt code n = false := hdit n hmn n.lt_succ_self
    have hrest : symbolSum code n = symbolSum code m :=
      ih fun i hmi hin => hdit i hmi (hin.trans n.lt_succ_self)
    rw [symbolSum_succ, hrest]
    simp [hn]

/-- Seven symbols after a count of at most 7 stay below 1024 (41 R131). -/
theorem magicSum_le : magicSum code ≤ 1023 := by
  have hcount := symbolTotal_le_seven code
  have hpow : 2 ^ symbolTotal code ≤ 2 ^ 7 := Nat.pow_le_pow_right (by decide) hcount
  have hsum := symbolSum_le code (symbolTotal code)
  rw [magicSum_eq_add]
  omega

/-- The 10 bits of the index lose nothing of the sum. -/
theorem magicIndex_toNat : (magicIndex code).toNat = magicSum code :=
  Nat.mod_eq_of_lt (Nat.lt_succ_of_le (magicSum_le code))

/-- No symbol is read at count 0. -/
theorem magicIndex_of_count_zero (h : symbolTotal code = 0) : magicIndex code = 0#10 := by
  simp [magicIndex, magicSum_eq_add, h]

/-- The index is in range where the count reaches no DAH after the fifth symbol (41 R132). -/
theorem magicIndex_le_of_late_dits
    (hdit : ∀ i, 5 ≤ i → i < symbolTotal code → symbolAt code i = false) :
    (magicIndex code).toNat ≤ 255 := by
  have hcount := symbolTotal_le_seven code
  have hfive : symbolSum code (symbolTotal code) = symbolSum code (min (symbolTotal code) 5) :=
    symbolSum_eq_of_dits code _ _ (min_le_left _ _) fun i hi hlt => hdit i (by omega) hlt
  have hpow : 2 ^ min (symbolTotal code) 5 ≤ 2 ^ 5 :=
    Nat.pow_le_pow_right (by decide) (min_le_right _ _)
  have hsum := symbolSum_le code (min (symbolTotal code) 5)
  rw [magicIndex_toNat, magicSum_eq_add, hfive]
  omega

theorem magicIndex_le_of_count_le_five (h : symbolTotal code ≤ 5) : (magicIndex code).toNat ≤ 255 :=
  magicIndex_le_of_late_dits code fun i hi hlt => by omega

/-- Bits 10 and 9 of a code are its symbols 5 and 6. -/
theorem magicIndex_le_of_clear_bits (hten : code.getLsbD 10 = false)
    (hnine : symbolTotal code = 7 → code.getLsbD 9 = false) : (magicIndex code).toNat ≤ 255 := by
  have hcount := symbolTotal_le_seven code
  refine magicIndex_le_of_late_dits code fun i hi hlt => ?_
  obtain rfl | rfl : i = 5 ∨ i = 6 := by omega
  · exact hten
  · exact hnine (by omega)

end

/-- Settles O15: the accumulation is the sum of the symbols' values, and 10 bits hold it. -/
theorem magicIndexIsTheSum : Obligations.MagicIndexIsTheSum := by
  refine fun code => ⟨?_, ?_, magicBase_eq_symbolTotal code⟩
  · rw [magicIndex_toNat]
    exact magicAccumulate_eq_add code _ _
  · rw [magicIndex_toNat]
    exact magicSum_le code

end Sys2Proof.Machine
end

section
/-! What a well-formed build decodes (41 R138): its letters, its digits and its punctuation keys. -/

namespace Sys2Proof.Build

section
variable (b : Build) (hwf : b.wf = true)
include hwf

/-- The source's entry for '0' (40 R111). -/
theorem readDigit_zero_of_wf : b.readDigit 0 = 0xF805#16 := by
  obtain ⟨-, hsource, -⟩ := b.wf_iff.1 hwf
  simp only [sourceCodes, Bool.and_eq_true, beq_iff_eq] at hsource
  exact hsource.2

/-- Every letter round-trips (41 R138 constraint 1). -/
theorem magicCharacter_readLetter_of_wf (i : Nat) (hi : i < 26) :
    b.magicCharacter (b.readLetter (Fin.ofNat 26 i)) = some (0x41#8 + BitVec.ofNat 8 i) := by
  obtain ⟨-, -, -, -, -, -, -, -, -, hletters, -⟩ := b.wf_iff.1 hwf
  simpa using List.all_eq_true.1 hletters i (List.mem_range.2 hi)

/-- Every digit round-trips (41 R138 constraint 2). -/
theorem magicCharacter_readDigit_of_wf (i : Nat) (hi : i < 10) :
    b.magicCharacter (b.readDigit (Fin.ofNat 10 i)) = some (0x30#8 + BitVec.ofNat 8 i) := by
  obtain ⟨-, -, -, -, -, -, -, -, -, -, hdigits, -⟩ := b.wf_iff.1 hwf
  simpa using List.all_eq_true.1 hdigits i (List.mem_range.2 hi)

/-- Every key but 'i', 'u' and 'w' round-trips through its first entry (41 R138 constraint 3). -/
theorem magicCharacter_of_firstKeyed_of_wf (ch : Character) (code : Code)
    (hfirst : firstKeyed b.punctRom ch = some code) (hprosign : prosignOnly ch = false) :
    b.magicCharacter code = some ch := by
  obtain ⟨-, -, -, -, -, -, -, -, -, -, -, hpunct⟩ := b.wf_iff.1 hwf
  obtain ⟨entry, hfind, -⟩ :=
    Option.map_eq_some_iff.1 ((Machine.firstKeyed_eq_find? b.punctRom ch).symm.trans hfirst)
  obtain rfl : entry.key = ch := by simpa using List.find?_some hfind
  have hentry := List.all_eq_true.1 hpunct entry (List.mem_of_find?_eq_some hfind)
  simpa [hprosign, hfirst] using hentry

/-- The code of '?' decodes to it (40 R112). -/
theorem magicCharacter_question_of_wf : b.magicCharacter 0x3006#16 = some 0x3F#8 := by
  obtain ⟨-, -, hquestion, -⟩ := b.wf_iff.1 hwf
  exact b.magicCharacter_of_firstKeyed_of_wf hwf _ _ (beq_iff_eq.1 hquestion) (by decide)

/-- The source's code of 'A' decodes to it (40 R110). -/
theorem magicCharacter_letter_a_of_wf : b.magicCharacter 0x4002#16 = some 0x41#8 :=
  b.readLetter_zero_of_wf hwf ▸ b.magicCharacter_readLetter_of_wf hwf 0 (by decide)

/-- The source's code of '0' decodes to it (40 R111). -/
theorem magicCharacter_digit_zero_of_wf : b.magicCharacter 0xF805#16 = some 0x30#8 :=
  b.readDigit_zero_of_wf hwf ▸ b.magicCharacter_readDigit_of_wf hwf 0 (by decide)

end

end Sys2Proof.Build
end

section
/-! The decoder's operations (41 R134, R135, R141): the read of `MAGIC_ROM`, the port after an
operation in range and out of range, and the steps that take their requests. -/

namespace Sys2Proof.Machine

/-- A step on a word that decodes performs the instruction. -/
theorem step_of_decodeRequest (s : State) (r : Request) (rest : List Request) (i : Instr)
    (hr : s.requests = r :: rest) (hd : decodeRequest r.word = .instr i) :
    step s = exec i { s with requests := rest, inFlight := some r.port } := by
  rw [step_cons s r rest hr, hd]

/-- In range, the low 8 bits of the index are all of it, and `MAGIC_ROM` is read at the index. -/
theorem magicRom_getElem?_of_le (b : Build) (code : Code) (h : (magicIndex code).toNat ≤ 255) :
    b.magicRom.toList[(magicIndex code).toNat]? = some (magicLookup b code) := by
  have hlt : (magicIndex code).toNat < 256 := by omega
  simp [magicLookup, Build.readMagic, Vector.get_eq_getElem, Nat.mod_eq_of_lt hlt, hlt]

section
variable (b : Build) (d : Nat) (code : Code) (port : Port)

/-- The port after an in-range `code_to_char`. -/
theorem Port.serve_codeToChar_of_le (h : (magicIndex code).toNat ≤ 255) :
    port.serve b d (.codeToChar code) =
      { response := charResponse d (magicLookup b code)
        outputs := port.outputs ++
          [.response (.codeToChar code) (charResponse d (magicLookup b code))]
        faults := port.faults } := by
  simp [Port.serve, magicInRange, h, Port.respond]

/-- The port after an in-range `decode`: the event stands before the response. -/
theorem Port.serve_decode_of_le (h : (magicIndex code).toNat ≤ 255) :
    port.serve b d (.decode code) =
      { response := successResponse d true
        outputs := port.outputs ++
          [.sink (.dec code (magicLookup b code)),
            .response (.decode code) (successResponse d true)]
        faults := port.faults } := by
  simp [Port.serve, magicInRange, h, Port.respond, Port.emit]

section
variable (i : Instr) (hi : i = .codeToChar code ∨ i = .decode code)
include hi

/-- The port after either operation out of range: the fault (60 R162). -/
theorem Port.serve_decoder_of_lt (h : 255 < (magicIndex code).toNat) :
    port.serve b d i =
      { response := faultResponse d
        outputs := port.outputs ++ [.response i (faultResponse d)]
        faults := port.faults ++ [{ code := code, idx := magicIndex code }] } := by
  have hrange : ¬ (magicIndex code).toNat ≤ 255 := Nat.not_le.2 h
  rcases hi with rfl | rfl <;>
    simp [Port.serve, magicInRange, hrange, Port.respond, Port.recordFault]

theorem Port.serve_decoder_status_of_le (h : (magicIndex code).toNat ≤ 255) :
    (port.serve b d i).response.status = .ok := by
  rcases hi with rfl | rfl
  · rw [Port.serve_codeToChar_of_le b d code port h, charResponse_status]
  · rw [Port.serve_decode_of_le b d code port h, successResponse_status]

theorem Port.serve_decoder_status_fault_iff :
    (port.serve b d i).response.status = .fault ↔ 255 < (magicIndex code).toNat := by
  rcases Nat.lt_or_ge 255 (magicIndex code).toNat with h | h
  · simp [Port.serve_decoder_of_lt b d code port i hi h, h]
  · simp [Port.serve_decoder_status_of_le b d code port i hi h, h]

end

end

/-- The fault of either operation is all that happens out of range (60 R162). -/
theorem exec_decoder_of_lt (s : State) (p : Nat) (port : Port) (code : Code) (i : Instr)
    (hf : s.inFlight = some p) (hp : s.ports[p]? = some port)
    (hi : i = .codeToChar code ∨ i = .decode code) (h : 255 < (magicIndex code).toNat) :
    ∃ a : Response, a.status = .fault ∧
      exec i s =
        .next (s.served p
          { response := a
            outputs := port.outputs ++ [.response i a]
            faults := port.faults ++ [{ code := code, idx := magicIndex code }] }) :=
  ⟨faultResponse s.draws, rfl,
    by rw [exec_eq_served i s p port hf hp, Port.serve_decoder_of_lt _ _ code port i hi h]⟩

/-- The corner cases the two operations share: count 0, the counts 6 and 7 in range, and the bits of
the code that are not read (41 R134, R135). -/
theorem magicIndex_corner_cases (code code' : Code) :
    (symbolTotal code = 0 → magicIndex code = 0#10) ∧
    (6 ≤ symbolTotal code → code.getLsbD 10 = false → code.getLsbD 9 = false →
      (magicIndex code).toNat ≤ 255) ∧
    (symbolTotal code = symbolTotal code' →
      (∀ i, i < symbolTotal code → code.getLsbD (15 - i) = code'.getLsbD (15 - i)) →
        magicIndex code = magicIndex code') :=
  ⟨magicIndex_of_count_zero code,
    fun _ hten hnine => magicIndex_le_of_clear_bits code hten fun _ => hnine,
    magicIndex_eq_of_symbols code code'⟩

/-- Settles O29: `code_to_char` is the request with `OP` 10, and its service puts the `MAGIC_ROM`
entry in the response, or is the fault. -/
theorem codeToCharAnswersMagicEntry : Obligations.CodeToCharAnswersMagicEntry := by
  refine ⟨?step, fun s p port code hf hp => ⟨fun h => ?inRange, ?outOfRange⟩,
    magicIndex_corner_cases, by decide, by decide, by decide, by decide, by decide, fun b hwf =>
      ⟨b.magicCharacter_question_of_wf hwf, b.magicCharacter_letter_a_of_wf hwf⟩⟩
  case step =>
    intro s r rest hr hop
    exact step_of_decodeRequest s r rest _ hr (decodeRequest_of_op_two _ hop)
  case inRange =>
    exact ⟨charResponse s.draws (magicLookup s.build code), rfl, magicRom_getElem?_of_le _ code h,
      by rw [exec_eq_served _ s p port hf hp, Port.serve_codeToChar_of_le _ _ code port h]⟩
  case outOfRange => exact exec_decoder_of_lt s p port code _ hf hp (.inl rfl)

/-- Settles O30: `decode` is the request with `OP` 11, and its service puts out the event with the
`MAGIC_ROM` entry and then the response, or is the fault. -/
theorem decodeDeliversMagicEntry : Obligations.DecodeDeliversMagicEntry := by
  refine ⟨?step, fun s p port code hf hp => ⟨fun h => ?inRange, ?outOfRange⟩,
    magicIndex_corner_cases, by decide, by decide, by decide, fun b hwf =>
      ⟨b.magicCharacter_question_of_wf hwf, b.magicCharacter_digit_zero_of_wf hwf⟩⟩
  case step =>
    intro s r rest hr hop
    exact step_of_decodeRequest s r rest _ hr (decodeRequest_of_op_three _ hop)
  case inRange =>
    exact ⟨magicLookup s.build code, successResponse s.draws true, magicRom_getElem?_of_le _ code h,
      rfl, rfl, by rw [exec_eq_served _ s p port hf hp, Port.serve_decode_of_le _ _ code port h]⟩
  case outOfRange => exact exec_decoder_of_lt s p port code _ hf hp (.inr rfl)

/-- Settles O35: the status of either operation depends on the index alone, and only a count of 6 or
7 can take the index out of range. -/
theorem countIsNotValidated : Obligations.CountIsNotValidated := by
  intro s p port code i hf hp hi
  have hok := Port.serve_decoder_status_of_le s.build s.draws code port i hi
  refine ⟨_, port.serve s.build s.draws i, exec_eq_served i s p port hf hp,
    s.served_port_same p port _ hp, Port.serve_decoder_status_fault_iff _ _ code port i hi,
    fun hfive => hok (magicIndex_le_of_count_le_five code hfive),
    fun hsix hten => hok (magicIndex_le_of_clear_bits code hten fun hseven => by omega),
    fun _ hten hnine => hok (magicIndex_le_of_clear_bits code hten fun _ => hnine),
    fun hzero => ?_⟩
  have hindex : (magicIndex code).toNat = 0 := by rw [magicIndex_of_count_zero code hzero]; rfl
  have hle : (magicIndex code).toNat ≤ 255 := by omega
  have hrom : s.build.magicRom.toList[0]? = some (magicLookup s.build code) :=
    hindex ▸ magicRom_getElem?_of_le s.build code hle
  constructor
  · rintro rfl
    rw [hrom, Port.serve_codeToChar_of_le _ _ code port hle, charResponse_chOut]
  · rintro rfl
    exact ⟨magicLookup s.build code, hrom, by
      simp [Port.serve_decode_of_le _ _ code port hle, Port.sinkStream]⟩

end Sys2Proof.Machine
end

section
/-! The corner outcomes of the operations (60 R161, R162): the fault of an index above 255, and the
normal completion of a character with no mapping. -/

namespace Sys2Proof.Machine

/-- The fault's service does not depend on the tables (60 R162). -/
theorem Port.serve_decoder_congr_of_lt (b other : Build) (d : Nat) (code : Code) (port : Port)
    (i : Instr) (hi : i = .codeToChar code ∨ i = .decode code) (h : 255 < (magicIndex code).toNat) :
    port.serve other d i = port.serve b d i := by
  rw [Port.serve_decoder_of_lt other d code port i hi h, Port.serve_decoder_of_lt b d code port i hi h]

/-- Settles O31: the state after the fault is the served one under every `MAGIC_ROM`, and it and its
reset have all their ports, on which every legal request completes. -/
theorem outOfRangeDecodeFaults : Obligations.OutOfRangeDecodeFaults := by
  intro s p port code i rom hf hp hi h
  obtain ⟨a, ha, hexec⟩ := exec_decoder_of_lt s p port code i hf hp hi h
  refine ⟨_, a, ha, hexec, rfl, ?otherRom, fun next j hport hd => ⟨?afterFault, ?afterReset⟩⟩
  case otherRom =>
    exact exec_with_build s _ { s.build with magicRom := rom } i
      (fun port => port.serve_decoder_congr_of_lt _ _ _ code i hi h) hexec
  case afterFault => exact State.completes_of_lt _ next j (by simpa using hport) hd
  case afterReset => exact State.completes_of_lt _ next j (by simpa using hport) hd

/-- Settles O32: the lookup of a character with no mapping is `ERROR_CODE`, not found, and the
encoder's operations answer the lookup. -/
theorem noMappingCompletesNormally : Obligations.NoMappingCompletesNormally := by
  intro s p port ch hf hp hother habsent
  have hlookup := lookup_of_absent s.build ch hother habsent
  constructor
  · exact ⟨codeResponse s.draws s.build.errorCode, rfl, rfl,
      by rw [exec_eq_served _ s p port hf hp, Port.serve_charToCode, hlookup]⟩
  · exact ⟨successResponse s.draws false, rfl, rfl,
      by rw [exec_eq_served _ s p port hf hp, Port.serve_encode, hlookup]⟩

end Sys2Proof.Machine
end

section
/-! Reset (70 R190 to R192): no port has put anything out just after it, and the first request served at
such a port is all that the port shows. -/

namespace Sys2Proof.Machine

/-- Reset leaves no event and no response at any port (70 R190). -/
theorem resetPorts_outputs (count d : Nat) : ∀ port ∈ resetPorts count d, port.outputs = [] := by
  intro port hmem
  obtain ⟨p, hp⟩ := List.mem_iff_getElem?.1 hmem
  have hlt : p < count := by simpa using (List.getElem?_eq_some_iff.1 hp).1
  rw [resetPorts_getElem? count d p hlt] at hp
  obtain rfl := Option.some.inj hp
  exact Port.reset_outputs (d + p)

/-- Where no port has put anything out, a request that completes leaves its own observation alone. -/
theorem State.completes.observation_eq {s : State} {r : Request} {i : Instr} (h : s.completes r i)
    (hports : ∀ port ∈ s.ports, port.outputs = []) :
    ∃ t, step (issueFirst r s) = .next t ∧
      t.observation r.port = [expectedObservation s.build i] := by
  obtain ⟨t, port, port', added, hstep, hp, hp', houtputs, hobserved, -⟩ := h
  have hempty : port.outputs = [] := hports port (List.mem_of_getElem? hp)
  have hadded : port'.outputs = added := by rw [houtputs, hempty, List.nil_append]
  exact ⟨t, hstep, by simp only [State.observation, hp', hadded, hobserved]⟩

/-- Settles O52: reset keeps the number of ports, so the request's port exists after it as before it,
and where a port exists a legal request completes; after reset its port has put out nothing else. -/
theorem requestAfterResetCompletesAlike : Obligations.RequestAfterResetCompletesAlike := by
  intro s r i hport hd
  have hafter : (applyReset s).completes r i :=
    State.completes_of_lt (applyReset s) r i (by simpa using hport) hd
  exact ⟨hafter, s.completes_of_lt r i hport hd,
    hafter.observation_eq (resetPorts_outputs s.ports.length s.draws)⟩

/-- Settles O50: the reset state's ports are `NUM_PORTS` reset ports, one more than a natural number. -/
theorem resetState : Obligations.ResetState :=
  ⟨State.reset_build, State.reset_inFlight, by simp [Config.numPorts],
    resetPorts_outputs Config.numPorts 0⟩

/-- Settles O51: the ports of a reset block are as many reset ports as it had ports. -/
theorem resetKeepsRomsAndClearsPorts : Obligations.ResetKeepsRomsAndClearsPorts := fun s =>
  ⟨applyReset_build s, applyReset_inFlight s, by simp,
    resetPorts_outputs s.ports.length s.draws⟩

end Sys2Proof.Machine
end

section
/-! The round trip between the request decoder and the request encoder (30 section 3). -/

namespace Sys2Proof

/-- A character operand is read back as the character (30 R69). -/
theorem decodeCharacter_characterOperand (operation : Character → Instr) (ch : Character) :
    decodeCharacter operation (characterOperand ch) = .instr (operation ch) := by
  simp [decodeCharacter, characterOperand_upper, characterOperand_lower]

/-- Settles O4: the decoder reads back the two fields of the word, and the byte of a character
operand. -/
theorem decodeReadsBackEncodedInstruction : Obligations.DecodeReadsBackEncodedInstruction := by
  intro i _
  cases i <;>
    simp [encodeRequest, decodeRequest, requestOp_requestWord, requestOperand_requestWord,
      decodeCharacter_characterOperand]

section
variable (w : RequestWord)

/-- A word is put together from its own two fields (30 R67). -/
theorem requestWord_fields : requestWord (requestOp w) (requestOperand w) = w := by
  apply BitVec.eq_of_getLsbD_eq
  intro k hk
  rw [requestWord_bit]
  by_cases hlow : k < 16
  · simp [hlow, requestOperand]
  · have hop : k - 16 < 2 := by omega
    have hplace : 16 + (k - 16) = k := by omega
    simp [hlow, hop, hplace, requestOp]

/-- With a zero reserved byte, the operand of a character request is its low byte (30 R69). -/
theorem characterOperand_of_reservedByte (h : requestReservedByte w = 0#8) :
    characterOperand (w.extractLsb' 0 8) = requestOperand w := by
  apply BitVec.eq_of_getLsbD_eq
  intro k hk
  rw [characterOperand_bit]
  by_cases hlow : k < 8
  · simp [hlow, hk, requestOperand]
  · have hbit := congrArg (fun byte => byte.getLsbD (k - 8)) h
    have hbyte : k - 8 < 8 := by omega
    have hplace : 8 + (k - 8) = k := by omega
    simpa [requestReservedByte, requestOperand, hlow, hk, hbyte, hplace] using hbit.symm

theorem requestWord_of_reservedByte (h : requestReservedByte w = 0#8) :
    requestWord (requestOp w) (characterOperand (w.extractLsb' 0 8)) = w := by
  rw [characterOperand_of_reservedByte w h, requestWord_fields]

end

/-- Settles O5: the word is put together from its fields, and a word that decodes has its `OP` and
operand in them; the reserved byte of a character request that decodes is zero. -/
theorem encodedDecodeIsTheRequestWord : Obligations.EncodedDecodeIsTheRequestWord := by
  intro w i hd
  rcases requestOp_cases w with hop | hop | hop | hop
  · rw [decodeRequest_of_op_zero w hop] at hd
    split_ifs at hd with hbyte
    rw [← Decoded.instr.inj hd, encodeRequest, ← hop, requestWord_of_reservedByte w hbyte]
  · rw [decodeRequest_of_op_one w hop] at hd
    split_ifs at hd with hbyte
    rw [← Decoded.instr.inj hd, encodeRequest, ← hop, requestWord_of_reservedByte w hbyte]
  · rw [decodeRequest_of_op_two w hop] at hd
    rw [← Decoded.instr.inj hd, encodeRequest, ← hop, requestWord_fields]
  · rw [decodeRequest_of_op_three w hop] at hd
    rw [← Decoded.instr.inj hd, encodeRequest, ← hop, requestWord_fields]

/-- The word of an instruction is a legal one (30 R73). -/
theorem requestLegal_encodeRequest (i : Instr) : requestLegal (encodeRequest i) = true := by
  have hencoded : Laws.EncodedLegal.Statement i := by
    cases i with
    | charToCode ch => exact Laws.EncodedLegal.charToCode ch
    | encode ch => exact Laws.EncodedLegal.encode ch
    | codeToChar code => exact Laws.EncodedLegal.codeToChar code
    | decode code => exact Laws.EncodedLegal.decode code
  obtain ⟨-, hlegal, -⟩ := hencoded
  exact hlegal

/-- The legal words are those that decode (30 R73). -/
theorem requestLegal_iff (w : RequestWord) :
    requestLegal w = true ↔ ∃ i, decodeRequest w = .instr i := by
  refine ⟨Machine.decodeRequest_of_legal w, ?_⟩
  rintro ⟨i, hd⟩
  rw [← encodedDecodeIsTheRequestWord w i hd]
  exact requestLegal_encodeRequest i

/-- Settles O8: the decoder, evaluated on the listed words. -/
theorem listedWordsDecode : Obligations.ListedWordsDecode := by
  unfold Obligations.ListedWordsDecode
  decide

end Sys2Proof
end

section
/-! One step of the machine: what it runs, the word placed for it, the invariant it keeps and
where it stops (10 sections 1 and 3, 30 section 3, 60 sections 1 and 2). -/

namespace Sys2Proof.Machine

/-- Settles O54: an idle step answers the same state, a completed transaction keeps the invariant,
and a refusal answers no state. -/
theorem stepKeepsInvariant : Obligations.StepKeepsInvariant := by
  intro s t hi hstep
  obtain ⟨-, hs⟩ | ⟨r, rest, -, hr, -, -⟩ | ⟨r, rest, -, -, hs⟩ := step_cases s
  · rw [hs, Host.Outcome.next.injEq] at hstep
    exact hstep ▸ hi
  · exact step_next_inv s t r rest hi hr hstep
  · simp [hs] at hstep

/-- Settles O1. -/
theorem stepRunsDecodedRequest : Obligations.StepRunsDecodedRequest := step_of_decodeRequest

/-- A step with no request waiting. -/
theorem step_of_no_request (s : State) (h : s.requests = []) : step s = .next s := by
  simp [step, fetchRequest, h]

/-- Settles O2. -/
theorem stepWithoutRequestIsIdle : Obligations.StepWithoutRequestIsIdle := step_of_no_request

section
variable (s : State) (nbits w : Nat)

/-- A table word of at most 18 bits, and what the decoder reads from it. -/
theorem decodeTableWord_eq_some_iff (i : Instr) :
    decodeTableWord nbits w = some i ↔
      ∃ word, requestWordOf nbits w = some word ∧ decodeRequest word = .instr i := by
  unfold decodeTableWord
  cases hw : requestWordOf nbits w with
  | none => simp
  | some word => cases hd : decodeRequest word <;> simp [hd]

/-- Placing a request word issues it first, on port 0 (log 13). -/
theorem withFetchWord_of_some (word : RequestWord) (h : requestWordOf nbits w = some word) :
    s.withFetchWord nbits w = issueFirst { port := 0, word := word } s := by
  simp [State.withFetchWord, h]

end

/-- The requests and port of a request just taken replace those of the issue. -/
theorem step_issueFirst (s : State) (r : Request) :
    step (issueFirst r s) =
      match decodeRequest r.word with
      | .instr i => exec i { s with inFlight := some r.port }
      | .rejected _ => .refused (.reservedOperand r.word) :=
  step_cons (issueFirst r s) r s.requests rfl

/-- Settles O9: a placed word is the next request, and a step runs what the next request decodes to
or refuses it; a number of more than 18 bits is not issued. -/
theorem placedTableWordRunsNext : Obligations.PlacedTableWordRunsNext := by
  refine fun s nbits w => ⟨fun i hi => ?runs, fun word hw hnone => ?refused, fun hbig => ?notIssued⟩
  case runs =>
    obtain ⟨word, hw, hd⟩ := (decodeTableWord_eq_some_iff nbits w i).1 hi
    rw [withFetchWord_of_some s nbits w word hw, step_issueFirst]
    simp [hd]
  case refused =>
    rw [withFetchWord_of_some s nbits w word hw, step_issueFirst]
    cases hd : decodeRequest word with
    | rejected e => simp
    | instr i =>
      have hsome := (decodeTableWord_eq_some_iff nbits w i).2 ⟨word, hw, hd⟩
      simp [hsome] at hnone
  case notIssued =>
    have hw : requestWordOf nbits w = none := if_neg (Nat.not_lt.2 hbig)
    simp [decodeTableWord, State.withFetchWord, hw]

/-- Settles O55: the three outcomes of a step, where the request's port exists. -/
theorem stepNeverStopsWithFault : Obligations.StepNeverStopsWithFault := by
  intro s hi
  obtain ⟨hr, hs⟩ | ⟨r, rest, i, hr, hd, -⟩ | ⟨r, rest, hr, hd, hs⟩ := step_cases s
  · simp [hs, hr]
  · have hl := (requestLegal_iff r.word).2 ⟨i, hd⟩
    obtain ⟨t, ht⟩ := step_next_of_legal s r rest hi hr hl
    simp [ht, hr, hl]
  · have hl : ¬ requestLegal r.word = true := by simp [requestLegal_iff, hd]
    simp [hs, hr, hl]

end Sys2Proof.Machine
end

section
/-! The operations' frame and where they stop (10 sections 1 and 3), and runs of any length: what
no step changes, interleavings of one set of request programs, runs with refused requests, and the
transaction after another one (10 section 2, 20 R49, 60 R163, R167). -/

namespace Sys2Proof.Machine

/-- Settles O36: an operation that answers a next state has served the port in flight, and a
service only adds to its port. -/
theorem operationFrame : Obligations.OperationFrame := by
  intro i s t hexec
  obtain ⟨p, port, hf, hp, rfl⟩ := (exec_eq_next_iff i s t).1 hexec
  obtain ⟨added, houtputs, -⟩ := port.serve_adds s.build s.draws i
  exact ⟨p, port, _, hf, hp, s.served_port_same p port _ hp, rfl, rfl, by simp,
    fun q hq => s.served_port_other p q _ hq, rfl, rfl, ⟨added, houtputs⟩,
    ⟨expectedFaults i, port.serve_faults s.build s.draws i⟩⟩

section
variable (u : Port → Port) (s : State)

/-- `finish` stops by name exactly where nothing is in flight (log 11). -/
theorem finish_eq_noTransaction_iff : finish u s = .fault .noTransaction ↔ s.inFlight = none := by
  unfold finish
  cases s.inFlight with
  | none => simp
  | some p => cases hp : s.ports[p]? <;> simp [hp]

/-- `finish` stops by name exactly where the port in flight does not exist (log 12). -/
theorem finish_eq_noSuchPort_iff (p : Nat) :
    finish u s = .fault (.noSuchPort p) ↔ s.inFlight = some p ∧ s.ports.length ≤ p := by
  unfold finish
  cases s.inFlight with
  | none => simp
  | some q =>
    rcases Nat.lt_or_ge q s.ports.length with h | h
    · simp only [List.getElem?_eq_getElem h, reduceCtorEq, Option.some.injEq, false_iff]
      omega
    · simp only [List.getElem?_eq_none h, Host.Outcome.fault.injEq, Fault.noSuchPort.injEq,
        Option.some.injEq]
      omega

end

/-- Settles O37: every operation is one completion, which stops exactly without a transaction in
flight or without its port. -/
theorem operationStopsOnlyWithoutPort : Obligations.OperationStopsOnlyWithoutPort := by
  intro i s
  rw [exec_eq_finish]
  exact ⟨finish_eq_noTransaction_iff _ s, finish_eq_noSuchPort_iff _ s, finish_not_refused _ s⟩

section
variable (s t : State)

/-- A step never changes the build or the number of ports. -/
theorem step_next_build_ports (h : step s = .next t) :
    t.build = s.build ∧ t.ports.length = s.ports.length := by
  cases hr : s.requests with
  | nil =>
    rw [step_of_no_request s hr, Host.Outcome.next.injEq] at h
    exact h ▸ ⟨rfl, rfl⟩
  | cons r rest =>
    obtain ⟨i, port, -, -, rfl⟩ := (step_eq_next_iff s t r rest hr).1 h
    simp

end

/-- Settles O49, by induction on the number of steps. -/
theorem runsNeverChangeRoms : Obligations.RunsNeverChangeRoms := by
  intro k
  induction k with
  | zero =>
    rintro s t ⟨⟩
    exact ⟨rfl, rfl⟩
  | succ more ih =>
    intro s t hrun
    cases hs : step s with
    | next u =>
      obtain ⟨hbuild, hports⟩ := step_next_build_ports s u hs
      obtain ⟨hbuild', hports'⟩ := ih u t (by simpa [runFor, hs] using hrun)
      exact ⟨hbuild'.trans hbuild, hports'.trans hports⟩
    | fault reason => simp [runFor, hs] at hrun
    | refused reason => simp [runFor, hs] at hrun

section
variable (s : State) (order : List Request)

/-- How often a request waits is how often its word stands in the program of its port. -/
theorem count_requests (r : Request) : s.requests.count r = (s.program r.port).count r.word := by
  obtain ⟨p, word⟩ := r
  simp only [State.program, List.count, List.countP_map, List.countP_filter]
  refine List.countP_congr fun r' _ => ?_
  cases r'
  simp [and_comm]

/-- Two orders with the same request program at every port hold the same requests. -/
theorem perm_of_programs
    (h : ∀ p, State.program { s with requests := order } p = s.program p) :
    order.Perm s.requests := by
  refine List.perm_iff_count.2 fun r => ?_
  rw [count_requests s r, ← h, ← count_requests]

/-- The invariant asks of the requests only that they are on ports of the block, in whatever
order. -/
theorem inv_of_perm (hi : s.inv = true) (hperm : order.Perm s.requests) :
    State.inv { s with requests := order } = true := by
  obtain ⟨hwf, hports, hconf, hon, hidle⟩ := (State.inv_iff s).1 hi
  exact (State.inv_iff _).2 ⟨hwf, hports, hconf, fun r hr => hon r (hperm.mem_iff.1 hr), hidle⟩

theorem requestsLegal_of_perm (hl : s.requestsLegal = true) (hperm : order.Perm s.requests) :
    State.requestsLegal { s with requests := order } = true := by
  simp only [State.requestsLegal, List.all_eq_true] at *
  exact fun r hr => hl r (hperm.mem_iff.1 hr)

end

/-- Settles O57: equal programs at every port make the two orders permutations of one another, so
both runs end, and what is due at a port depends on its program and not on the order. -/
theorem interleavingDoesNotMatter : Obligations.InterleavingDoesNotMatter := by
  intro s order k hi hl hprogram hk
  have hperm := perm_of_programs s order hprogram
  obtain ⟨t, hrun, hend, -, hdue⟩ := runAnswersEachPortsProgram s k hi hl hk
  obtain ⟨t', hrun', hend', -, hdue'⟩ :=
    runAnswersEachPortsProgram { s with requests := order } k (inv_of_perm s order hi hperm)
      (requestsLegal_of_perm s order hl hperm) (hperm.length_eq.trans_le hk)
  refine ⟨t, t', hrun, hrun', hend, hend', fun p => ?_⟩
  rw [(hdue p).1, (hdue p).2, (hdue' p).1, (hdue' p).2, hprogram]
  exact ⟨rfl, rfl⟩

section
variable (s : State) (r : Request) (rest : List Request)

/-- A refused request leaves what is due at every port as it is: its word gives no operation. -/
theorem due_of_refused (hr : s.requests = r :: rest)
    (hd : decodeRequest r.word = .rejected .reservedOperand) (p : Nat) :
    State.dueObservation { s with requests := rest } p = s.dueObservation p ∧
      State.dueFaults { s with requests := rest } p = s.dueFaults p := by
  have hprogram : programOperations (State.program { s with requests := rest } p) =
      programOperations (s.program p) := by
    by_cases hp : r.port = p <;> simp [State.program, programOperations, hr, hd, hp]
  simp [State.dueObservation, State.dueFaults, hprogram]

/-- The invariant holds of the requests left when the first is taken away. -/
theorem inv_of_request_removed (hi : s.inv = true) (hr : s.requests = r :: rest) :
    State.inv { s with requests := rest } = true := by
  obtain ⟨hwf, hports, hconf, hon, hidle⟩ := (State.inv_iff s).1 hi
  exact (State.inv_iff _).2
    ⟨hwf, hports, hconf, fun r' hmem => hon r' (hr ▸ List.mem_cons_of_mem r hmem), hidle⟩

end

/-- The reserved request words still waiting, in order. -/
def State.reservedWords (s : State) : List RequestWord :=
  (s.requests.map Request.word).filter fun word => !requestLegal word

/-- A long enough run that goes on after refusals ends, has marked the reserved words that were
waiting, and conserves what is due at every port. -/
theorem runMarked_ends (k : Nat) (refused : List RequestWord) (s : State) (hi : s.inv = true)
    (hk : s.requests.length ≤ k) :
    ∃ t, runMarked k refused s = some { state := t, refused := refused ++ s.reservedWords } ∧
      t.requests = [] ∧ t.build = s.build ∧
      ∀ p, t.dueObservation p = s.dueObservation p ∧ t.dueFaults p = s.dueFaults p := by
  induction k generalizing refused s with
  | zero =>
    have hr : s.requests = [] := by simpa using hk
    exact ⟨s, by simp [runMarked, State.reservedWords, hr], hr, rfl, fun _ => ⟨rfl, rfl⟩⟩
  | succ more ih =>
    obtain ⟨hr, hs⟩ | ⟨r, rest, i, hr, hd, -⟩ | ⟨r, rest, hr, hd, hs⟩ := step_cases s
    · simpa [runMarked, hs] using ih refused s hi (by simp [hr])
    · have hl : requestLegal r.word = true := (requestLegal_iff r.word).2 ⟨i, hd⟩
      obtain ⟨u, hu⟩ := step_next_of_legal s r rest hi hr hl
      obtain ⟨hrest, hbuild⟩ := step_next_requests_build s u r rest hr hu
      have hwords : u.reservedWords = s.reservedWords := by
        simp [State.reservedWords, hrest, hr, hl]
      obtain ⟨t, hrun, hend, hb, hdue⟩ :=
        ih refused u (step_next_inv s u r rest hi hr hu) (by simpa [hr, hrest] using hk)
      have hstep := step_next_due s u r rest hi hr hu
      exact ⟨t, by simpa [runMarked, hu, hwords] using hrun, hend, hb.trans hbuild,
        fun p => ⟨(hdue p).1.trans (hstep p).1, (hdue p).2.trans (hstep p).2⟩⟩
    · have hl : ¬ requestLegal r.word = true := by simp [requestLegal_iff, hd]
      have hwords : s.reservedWords =
          r.word :: State.reservedWords { s with requests := rest } := by
        simp [State.reservedWords, hr, hl]
      obtain ⟨t, hrun, hend, hb, hdue⟩ :=
        ih (refused ++ [r.word]) { s with requests := rest } (inv_of_request_removed s r rest hi hr)
          (by simpa [hr] using hk)
      have hskip := due_of_refused s r rest hr hd
      exact ⟨t, by simpa [runMarked, hs, hr, hwords] using hrun, hend, hb,
        fun p => ⟨(hdue p).1.trans (hskip p).1, (hdue p).2.trans (hskip p).2⟩⟩

/-- Settles O58: the marked run conserves what is due at each port, and at its end all of it has
been observed. -/
theorem refusedRequestsAreMarkedAndSkipped : Obligations.RefusedRequestsAreMarkedAndSkipped := by
  intro s k hi hk
  obtain ⟨t, hrun, hend, hbuild, hdue⟩ := runMarked_ends k [] s hi hk
  refine ⟨t, hrun, by simp [State.runEnded, hend], hbuild, fun p => ⟨?_, ?_⟩⟩
  · exact (t.dueObservation_of_ended p hend).symm.trans (hdue p).1
  · exact (t.dueFaults_of_ended p hend).symm.trans (hdue p).2

/-- Settles O60: the first transaction keeps the build and all its ports and takes away its own
request only, and where its port exists the next request completes in either state. -/
theorem earlierTransactionLeavesNoTrace : Obligations.EarlierTransactionLeavesNoTrace := by
  intro s t first next rest j hr hstep hport hd
  obtain ⟨hrest, hbuild⟩ := step_next_requests_build s t first (next :: rest) hr hstep
  obtain ⟨-, hports⟩ := step_next_build_ports s t hstep
  exact ⟨hbuild, hrest, State.completes_of_lt _ next j (hports ▸ hport) hd,
    State.completes_of_lt _ next j hport hd⟩

end Sys2Proof.Machine
end

section
/-! A host's two bytes of a code (20 R42), and the symbols of a packed code (30 R65). -/

namespace Sys2Proof.Machine

/-- Settles O14: the two bytes, put together again in their order, are the code. -/
theorem serialisedCodeReadsBack : Obligations.SerialisedCodeReadsBack := by
  intro code
  have hbytes : code.extractLsb' 8 8 ++ code.extractLsb' 0 8 = code :=
    (BitVec.extractLsb'_append_extractLsb'_eq_extractLsb' (start₁ := 0) (len₁ := 8) rfl).trans
      BitVec.extractLsb'_eq_self
  have hback : ∀ order, deserialiseCode order (serialiseCode order code) = code := by
    intro order
    cases order <;> exact hbytes
  exact ⟨hback, hback _, rfl⟩

/-- The bit of a DAH at place `i` (30 R65). -/
theorem dahBit (i j : Nat) (hi : i ≤ 15) (hj : j ≤ 15) :
    (1#16 <<< (15 - i)).getLsbD (15 - j) = decide (j = i) := by
  rw [Bool.eq_iff_iff]
  simp only [BitVec.getLsbD_shiftLeft, BitVec.getLsbD_one, Bool.and_eq_true, Bool.not_eq_true',
    decide_eq_true_eq, decide_eq_false_iff_not]
  omega

/-- The symbols of a packed spelling from place `i` on: a DAH where the spelling has one (30 R65).
-/
theorem packSymbols_bit (symbols : List Symbol) (i j : Nat) (hi : i + symbols.length ≤ 16)
    (hj : j ≤ 15) :
    (packSymbols i symbols).getLsbD (15 - j) = decide (i ≤ j ∧ symbols[j - i]? = some .dah) := by
  induction symbols generalizing i with
  | nil => simp [packSymbols]
  | cons symbol rest ih =>
    rw [List.length_cons] at hi
    have hrest := ih (i + 1) (by omega)
    have hdah := dahBit i j (by omega) hj
    rcases Nat.lt_trichotomy j i with hlt | rfl | hgt
    · have hne : ¬ i ≤ j ∧ ¬ i + 1 ≤ j ∧ j ≠ i := by omega
      cases symbol <;> simp [packSymbols, hrest, hdah, hne]
    · cases symbol <;> simp [packSymbols, hrest, hdah]
    · have hle : i ≤ j ∧ i + 1 ≤ j ∧ j ≠ i := by omega
      have hplace : j - i = j - (i + 1) + 1 := by omega
      cases symbol <;> simp [packSymbols, hrest, hdah, hle, hplace]

section
variable (symbols : List Symbol)

/-- The packed code of a spelling (30 R65), where it has one. -/
def packedCode : Code := BitVec.ofNat 16 symbols.length ||| packSymbols 0 symbols

theorem pack_of_length (h : 1 ≤ symbols.length) (h' : symbols.length ≤ 7) :
    pack symbols = some (packedCode symbols) := if_pos ⟨h, h'⟩

/-- The symbols stand in the bits above the count. -/
theorem packedCode_symbol (h : symbols.length ≤ 7) (i : Nat) (hi : i < 13) :
    (packedCode symbols).getLsbD (15 - i) = decide (symbols[i]? = some .dah) := by
  have hcount : symbols.length.testBit (15 - i) = false := by
    have hpow : 2 ^ 3 ≤ 2 ^ (15 - i) := Nat.pow_le_pow_right (by decide) (by omega)
    exact Nat.testBit_lt_two_pow (by omega)
  simp [packedCode, BitVec.getLsbD_ofNat, hcount, packSymbols_bit symbols 0 i (by omega) (by omega)]

/-- The count stands in bits [2:0], which no symbol of the spelling reaches. -/
theorem symbolTotal_packedCode (h : symbols.length ≤ 7) :
    symbolTotal (packedCode symbols) = symbols.length := by
  have hcount : symbolCount (packedCode symbols) = BitVec.ofNat 3 symbols.length := by
    apply BitVec.eq_of_getLsbD_eq
    intro k hk
    have hplace : 15 - (15 - k) = k := by omega
    have hnone : symbols[15 - k]? = none := List.getElem?_eq_none (by omega)
    have hzero : (packSymbols 0 symbols).getLsbD k = false := by
      simpa [hplace, hnone] using packSymbols_bit symbols 0 (15 - k) (by omega) (by omega)
    have hwide : k < 16 := by omega
    simp only [symbolCount, packedCode, BitVec.getLsbD_extractLsb', BitVec.getLsbD_or,
      BitVec.getLsbD_ofNat, Nat.zero_add, hzero, hk, hwide, decide_true, Bool.true_and,
      Bool.or_false]
  rw [symbolTotal, hcount, BitVec.toNat_ofNat, Nat.mod_eq_of_lt (by omega)]

/-- The symbols of a packed code are those of the spelling. -/
theorem spell_packedCode (h : symbols.length ≤ 7) : spell (packedCode symbols) = symbols := by
  apply List.ext_getElem
  · simp [spell, symbolTotal_packedCode symbols h]
  · intro i hi hi'
    have hbit := packedCode_symbol symbols h i (by omega)
    cases hs : symbols[i] <;> simp [spell, symbolAt, hbit, hi', hs, symbolOfBit]

end

/-- Settles O12: the packed code holds the symbols above the count, and spelling it out reads
both. -/
theorem spellingOfPackedCode : Obligations.SpellingOfPackedCode := by
  refine fun symbols => ⟨fun h h' => ?_, fun hlength => if_neg hlength⟩
  exact ⟨packedCode symbols, pack_of_length symbols h h', spell_packedCode symbols h',
    symbolTotal_packedCode symbols h', packedCode_symbol symbols h'⟩

end Sys2Proof.Machine
end

section
/-! The magic index as a concatenation and as a perfect hash (41 R131 to R133, R136): the number its
symbols make, read bit by bit. -/

namespace Sys2Proof.Machine

/-- The number whose bit `i` is symbol `i`, for the first `n` symbols of a code (41 R133). -/
def symbolNumber (code : Code) (n : Nat) : Nat := Nat.ofBits fun i : Fin n => symbolAt code i

section
variable (code : Code)

theorem symbolNumber_testBit (n i : Nat) :
    (symbolNumber code n).testBit i = (symbolAt code i && decide (i < n)) := by
  by_cases h : i < n <;> simp [symbolNumber, Nat.testBit_ofBits, h]

theorem symbolNumber_lt (n : Nat) : symbolNumber code n < 2 ^ n := Nat.ofBits_lt_two_pow _

/-- One more symbol is one more bit on top. -/
theorem symbolNumber_succ (n : Nat) :
    symbolNumber code (n + 1) = 2 ^ n * (symbolAt code n).toNat + symbolNumber code n := by
  apply Nat.eq_of_testBit_eq
  intro i
  rw [Nat.testBit_two_pow_mul_add _ (symbolNumber_lt code n), symbolNumber_testBit,
    symbolNumber_testBit, Nat.testBit_bool_toNat]
  rcases Nat.lt_trichotomy i n with hlt | rfl | hgt
  · simp [hlt, Nat.lt_succ_of_lt hlt]
  · simp
  · have hne : ¬ i < n ∧ ¬ i < n + 1 ∧ i - n ≠ 0 := by omega
    simp [hne]

/-- Step 3 of 41 R130 adds 8 times the number of the symbols. -/
theorem symbolSum_eq_mul (n : Nat) : symbolSum code n = 8 * symbolNumber code n := by
  induction n with
  | zero => rfl
  | succ n ih =>
    rw [symbolSum_succ, symbolNumber_succ, ih, Nat.shiftLeft_eq]
    cases symbolAt code n with
    | false => simp
    | true =>
      simp only [Bool.toNat_true, if_true]
      omega

/-- The index is the count and above it the number of the symbols the count reaches (41 R133). -/
theorem magicIndex_toNat_eq :
    (magicIndex code).toNat = symbolTotal code + 8 * symbolNumber code (symbolTotal code) := by
  rw [magicIndex_toNat, magicSum_eq_add, symbolSum_eq_mul]

theorem magicIndex_mod : (magicIndex code).toNat % 8 = symbolTotal code := by
  have hcount := symbolTotal_le_seven code
  rw [magicIndex_toNat_eq]
  omega

theorem magicIndex_div : (magicIndex code).toNat / 8 = symbolNumber code (symbolTotal code) := by
  have hcount := symbolTotal_le_seven code
  rw [magicIndex_toNat_eq]
  omega

/-- Bit `3 + i` of the index (41 R131). -/
theorem magicIndex_symbolBit (i : Nat) :
    (magicIndex code).getLsbD (3 + i) = magicSymbolBit code i := by
  rw [magicSymbolBit, ← symbolNumber_testBit, ← magicIndex_div, ← BitVec.testBit_toNat,
    Nat.add_comm]
  exact (Nat.testBit_div_two_pow (n := 3) _ i).symm

/-- Bits [2:0] of the index (41 R131). -/
theorem magicIndex_countField : (magicIndex code).extractLsb' 0 3 = symbolCount code := by
  apply BitVec.eq_of_toNat_eq
  rw [BitVec.extractLsb'_toNat, Nat.shiftRight_zero]
  exact magicIndex_mod code

theorem magicIndex_countBit (k : Nat) (hk : k < 3) :
    (magicIndex code).getLsbD k = code.getLsbD k := by
  have hbit := congrArg (fun field => field.getLsbD k) (magicIndex_countField code)
  simpa [symbolCount, hk] using hbit

/-- The sum of 41 R130 is the concatenation of 41 R131. -/
theorem magicIndex_eq_bits : magicIndex code = magicIndexBits code := by
  apply BitVec.eq_of_getLsbD_eq
  intro k hk
  rw [magicIndexBits, BitVec.getLsbD_ofBoolListLE]
  rcases Nat.lt_or_ge k 3 with hlow | hhigh
  · rw [magicIndex_countBit code k hlow]
    interval_cases k <;> rfl
  · obtain ⟨i, rfl⟩ := Nat.exists_eq_add_of_le hhigh
    have hi : i < 7 := by omega
    rw [magicIndex_symbolBit]
    interval_cases i <;> rfl

end

/-- Settles O16. -/
theorem magicIndexHasBitForm : Obligations.MagicIndexHasBitForm := fun code =>
  ⟨magicIndex_countField code, fun i _ => magicIndex_symbolBit code i, magicIndex_eq_bits code⟩

section
variable (code : Code)

/-- In 10 bits, an index of at most 255 is one with bits [9:8] zero (41 R132). -/
theorem magicIndex_le_iff_upper_zero (idx : MagicIndex) :
    idx.toNat ≤ 255 ↔ idx.extractLsb' 8 2 = 0#2 := by
  rw [← BitVec.toNat_inj, BitVec.extractLsb'_toNat, Nat.shiftRight_eq_div_pow]
  simp only [BitVec.toNat_ofNat]
  omega

/-- Bits 8 and 9 of the index are symbols 5 and 6, where the count reaches them. -/
theorem magicIndex_le_iff_no_late_dah :
    (magicIndex code).toNat ≤ 255 ↔
      ¬ (6 ≤ symbolTotal code ∧ code.getLsbD 10 = true) ∧
        ¬ (symbolTotal code = 7 ∧ code.getLsbD 9 = true) := by
  have hcount := symbolTotal_le_seven code
  constructor
  · intro hle
    have hbit (k : Nat) (hk : 8 ≤ k) : (magicIndex code).getLsbD k = false := by
      have hpow : 2 ^ 8 ≤ 2 ^ k := Nat.pow_le_pow_right (by decide) hk
      exact Nat.testBit_lt_two_pow (by omega)
    have hfive : (code.getLsbD 10 && decide (5 < symbolTotal code)) = false :=
      (magicIndex_symbolBit code 5).symm.trans (hbit 8 (by decide))
    have hsix : (code.getLsbD 9 && decide (6 < symbolTotal code)) = false :=
      (magicIndex_symbolBit code 6).symm.trans (hbit 9 (by decide))
    constructor
    · rintro ⟨hn, hten⟩
      rw [hten, Bool.true_and, decide_eq_false_iff_not] at hfive
      omega
    · rintro ⟨hn, hnine⟩
      rw [hnine, Bool.true_and, decide_eq_false_iff_not] at hsix
      omega
  · rintro ⟨hten, hnine⟩
    refine magicIndex_le_of_late_dits code fun i hi hlt => ?_
    obtain rfl | rfl : i = 5 ∨ i = 6 := by omega
    · exact Bool.eq_false_iff.2 fun h => hten ⟨by omega, h⟩
    · exact Bool.eq_false_iff.2 fun h => hnine ⟨by omega, h⟩

end

/-- The test of 41 R132 on the number of a code: a DAH for symbol 5 or 6 within the count. -/
def hasLateDah (c : Nat) : Bool :=
  (decide (6 ≤ c % 8) && c.testBit 10) || (decide (c % 8 = 7) && c.testBit 9)

/-- The test reads the low 11 bits only. -/
theorem magicIndex_out_of_range_eq (c : Nat) :
    decide (255 < (magicIndex (BitVec.ofNat 16 c)).toNat) = hasLateDah (c % 2048) := by
  have hcount : symbolTotal (BitVec.ofNat 16 c) = c % 2048 % 8 := by
    simp [symbolTotal, symbolCount]
  have hbit (k : Nat) (hk : k < 11) :
      (BitVec.ofNat 16 c).getLsbD k = (c % 2 ^ 11).testBit k := by
    have hwide : k < 16 := by omega
    simp only [BitVec.getLsbD_ofNat, Nat.testBit_mod_two_pow, hk, hwide]
  rw [Bool.eq_iff_iff, decide_eq_true_eq, ← Nat.not_le, magicIndex_le_iff_no_late_dah, hcount,
    hbit 10 (by decide), hbit 9 (by decide)]
  simp only [hasLateDah, Bool.or_eq_true, Bool.and_eq_true, decide_eq_true_eq]
  tauto

/-- Counting a periodic test over whole periods. -/
theorem countP_range_mul (test : Nat → Bool) (m k : Nat) :
    (List.range (m * k)).countP (fun c => test (c % m)) = k * (List.range m).countP test := by
  induction k with
  | zero => simp
  | succ k ih =>
    have hlast : (List.range m).countP ((fun c => test (c % m)) ∘ fun c => m * k + c) =
        (List.range m).countP test :=
      List.countP_congr fun c hc => by
        simp [Nat.mod_eq_of_lt (List.mem_range.1 hc)]
    rw [Nat.mul_succ, List.range_add, List.countP_append, List.countP_map, ih, hlast, Nat.succ_mul]

/-- One period of the test: 64 settings of the unread bits, and 5 of the 32 of count and symbols. -/
theorem countP_hasLateDah : (List.range 2048).countP hasLateDah = 320 := by decide +kernel

/-- Settles O17: symbols 5 and 6 decide the range, and they stand in the low 11 bits of the code,
so the 65536 codes are 32 periods of the test. -/
theorem magicIndexRange : Obligations.MagicIndexRange := by
  refine ⟨fun code => ⟨magicIndex_le_iff_upper_zero _, magicIndex_le_iff_no_late_dah code,
    magicIndex_le_of_count_le_five code⟩, ?_⟩
  simp only [magicIndex_out_of_range_eq]
  rw [countP_range_mul hasLateDah 2048 32, countP_hasLateDah]

/-- Codes with the same index have the same count and the same symbols within it (41 R133). -/
theorem symbols_eq_of_magicIndex (code code' : Code) (h : magicIndex code = magicIndex code') :
    symbolTotal code = symbolTotal code' ∧
      ∀ i, i < symbolTotal code → symbolAt code i = symbolAt code' i := by
  have hcount : symbolTotal code = symbolTotal code' := by
    rw [← magicIndex_mod, ← magicIndex_mod, h]
  refine ⟨hcount, fun i hi => ?_⟩
  have hbit := magicIndex_symbolBit code i
  rw [h, magicIndex_symbolBit] at hbit
  simpa [magicSymbolBit, ← hcount, hi] using hbit.symm

/-- The `n` symbols that make a number, symbol `i` its bit `i`. -/
def numberSymbols (n k : Nat) : List Symbol := (List.range n).map fun i => symbolOfBit (k.testBit i)

theorem symbolOfBit_eq_dah_iff (bit : Bool) : symbolOfBit bit = .dah ↔ bit = true := by
  cases bit <;> simp [symbolOfBit]

/-- Every count and every number of that many symbols is reached, by packing the symbols. -/
theorem exists_code_of_symbolNumber (n k : Nat) (hn : n ≤ 7) (hk : k < 2 ^ n) :
    ∃ code : Code, symbolTotal code = n ∧ symbolNumber code n = k := by
  have hlength : (numberSymbols n k).length = n := by simp [numberSymbols]
  have htotal := symbolTotal_packedCode (numberSymbols n k) (by omega)
  refine ⟨packedCode (numberSymbols n k), htotal.trans hlength, Nat.eq_of_testBit_eq fun i => ?_⟩
  rw [symbolNumber_testBit]
  rcases Nat.lt_or_ge i n with hi | hi
  · rw [symbolAt, packedCode_symbol _ (by omega) i (by omega)]
    simp [numberSymbols, hi, symbolOfBit_eq_dah_iff]
  · have hbig : k < 2 ^ i := hk.trans_le (Nat.pow_le_pow_right (by decide) hi)
    simp [Nat.testBit_lt_two_pow hbig, Nat.not_lt.2 hi]

/-- The indices within 0..255 (41 R133): a number of `n` symbols below 32 is one below `2 ^ min n
5`. -/
theorem magicIndex_reached_iff (m : Nat) (hm : m ≤ 255) :
    (∃ code : Code, (magicIndex code).toNat = m) ↔
      ∃ n k, n ≤ 7 ∧ k < 2 ^ min n 5 ∧ m = n + 8 * k := by
  constructor
  · rintro ⟨code, rfl⟩
    refine ⟨symbolTotal code, symbolNumber code (symbolTotal code), symbolTotal_le_seven code, ?_,
      magicIndex_toNat_eq code⟩
    have hlt := symbolNumber_lt code (symbolTotal code)
    rw [magicIndex_toNat_eq] at hm
    rcases Nat.le_total (symbolTotal code) 5 with h | h
    · rwa [Nat.min_eq_left h]
    · rw [Nat.min_eq_right h]
      omega
  · rintro ⟨n, k, hn, hk, rfl⟩
    have hpow : 2 ^ min n 5 ≤ 2 ^ n := Nat.pow_le_pow_right (by decide) (Nat.min_le_left n 5)
    obtain ⟨code, rfl, rfl⟩ := exists_code_of_symbolNumber n k hn (hk.trans_le hpow)
    exact ⟨code, magicIndex_toNat_eq code⟩

/-- Settles O18: the index is the count and the number of the symbols, so it is one-to-one on both
and reaches every pair of them. -/
theorem magicIndexIsPerfectHash : Obligations.MagicIndexIsPerfectHash := by
  refine ⟨fun code => ⟨magicIndex_mod code, fun i => ?bits⟩, fun code code' => ⟨?same, ?hash⟩,
    magicIndex_reached_iff, by decide +kernel⟩
  case bits => rw [magicIndex_div, symbolNumber_testBit]
  case same => exact symbols_eq_of_magicIndex code code'
  case hash => exact fun ⟨hcount, hsymbols⟩ => magicIndex_eq_of_symbols code code' hcount hsymbols

/-- Settles O19: equal indices give equal reads and equal ranges. -/
theorem unreadCodeBitsDoNotMatter : Obligations.UnreadCodeBitsDoNotMatter := by
  intro b code code' hcount hsymbols
  have hindex := magicIndex_eq_of_symbols code code' hcount hsymbols
  have hrange : magicInRange code = magicInRange code' := by simp only [magicInRange, hindex]
  have hlookup : magicLookup b code = magicLookup b code' := by simp only [magicLookup, hindex]
  refine ⟨hindex, hrange, hlookup, ?_⟩
  cases h : magicInRange code' <;> simp [expectedObservation, hrange, hlookup, h]

end Sys2Proof.Machine
end

section
/-! The codes a well-formed build stores (10 R25, 30 R64) and the lookups its constraints fix (40
R112 to R114). -/

namespace Sys2Proof

theorem codeStored_iff (max : Nat) (code : Code) :
    codeStored max code = true ↔
      1 ≤ Machine.symbolTotal code ∧ Machine.symbolTotal code ≤ max ∧
        Machine.reservedField code = 0#8 := by
  simp [codeStored, and_assoc]

/-- The reserved field holds the bits of symbols 5 and 6, so a stored code has DITs there (30
R64). -/
theorem symbolAt_of_reservedField (code : Code) (h : Machine.reservedField code = 0#8) (i : Nat)
    (hi : i = 5 ∨ i = 6) : Machine.symbolAt code i = false := by
  have hbit := congrArg (fun field => field.getLsbD (12 - i)) h
  rcases hi with rfl | rfl <;> simpa [Machine.reservedField, Machine.symbolAt] using hbit

/-- The scan finds exactly the keys (40 R103). -/
theorem firstKeyed_isSome_iff (rom : List PunctEntry) (ch : Character) :
    (firstKeyed rom ch).isSome = true ↔ ∃ entry ∈ rom, entry.key = ch := by
  simp [Machine.firstKeyed_eq_find?]

/-- What the scan finds is the first entry with the key (40 R103). -/
theorem firstKeyed_eq_some (rom : List PunctEntry) (ch : Character) (code : Code)
    (h : firstKeyed rom ch = some code) :
    ∃ (j : Nat) (entry : PunctEntry), rom[j]? = some entry ∧ entry.key = ch ∧ entry.code = code ∧
      ∀ (k : Nat) (earlier : PunctEntry), k < j → rom[k]? = some earlier → earlier.key ≠ ch := by
  rw [Machine.firstKeyed_eq_find?, Option.map_eq_some_iff] at h
  obtain ⟨entry, hfind, hcode⟩ := h
  obtain ⟨hkey, j, hj, hget, hfirst⟩ := List.find?_eq_some_iff_getElem.1 hfind
  refine ⟨j, entry, List.getElem?_eq_some_iff.2 ⟨hj, hget⟩, by simpa using hkey, hcode, ?_⟩
  intro k earlier hk hearlier
  obtain ⟨-, rfl⟩ := List.getElem?_eq_some_iff.1 hearlier
  simpa using hfirst k hk

namespace Build

variable (b : Build)

/-- The codes in the encoder's tables, and `ERROR_CODE`. -/
def holdsCode (code : Code) : Prop :=
  code ∈ b.letterRom.toList ∨ code ∈ b.digitRom.toList ∨
    (∃ entry ∈ b.punctRom, entry.code = code) ∨ code = b.errorCode

theorem magicCharacter_eq_some_iff (code : Code) (c : Character) :
    b.magicCharacter code = some c ↔
      (Machine.magicIndex code).toNat ≤ 255 ∧ Machine.magicLookup b code = c := by
  by_cases h : (Machine.magicIndex code).toNat ≤ 255 <;>
    simp [magicCharacter, Machine.magicLookup, Machine.magicInRange, h]

section
variable (hwf : b.wf = true)
include hwf

theorem directCode_stored_of_wf (code : Code)
    (h : code ∈ b.letterRom.toList ∨ code ∈ b.digitRom.toList) : codeStored 5 code = true := by
  obtain ⟨hdirect, -⟩ := b.wf_iff.1 hwf
  simp only [directCodesStored, Bool.and_eq_true, List.all_eq_true] at hdirect
  exact h.elim (hdirect.1 code) (hdirect.2 code)

theorem punctCode_stored_of_wf (entry : PunctEntry) (h : entry ∈ b.punctRom) :
    codeStored 7 entry.code = true := by
  obtain ⟨-, -, -, -, -, hpunct, -⟩ := b.wf_iff.1 hwf
  exact List.all_eq_true.1 hpunct entry h

theorem errorCode_stored_of_wf : codeStored 7 b.errorCode = true := by
  obtain ⟨-, -, -, -, -, -, -, herror, -⟩ := b.wf_iff.1 hwf
  exact herror

/-- Every code of the encoder's tables meets 10 R25. -/
theorem codeStored_of_wf (code : Code) (h : b.holdsCode code) : codeStored 7 code = true := by
  have direct (h : code ∈ b.letterRom.toList ∨ code ∈ b.digitRom.toList) :
      codeStored 7 code = true := by
    obtain ⟨hlow, hhigh, hzero⟩ := (codeStored_iff 5 code).1 (b.directCode_stored_of_wf hwf code h)
    exact (codeStored_iff 7 code).2 ⟨hlow, hhigh.trans (by decide), hzero⟩
  rcases h with h | h | ⟨entry, hmem, rfl⟩ | rfl
  · exact direct (.inl h)
  · exact direct (.inr h)
  · exact b.punctCode_stored_of_wf hwf entry hmem
  · exact b.errorCode_stored_of_wf hwf

/-- Symbols 5 and 6 of such a code are DITs, where its count reaches them. -/
theorem late_dit_of_wf (code : Code) (h : b.holdsCode code) (i : Nat) (hi : 5 ≤ i)
    (hlt : i < Machine.symbolTotal code) : Machine.symbolAt code i = false := by
  obtain ⟨-, hhigh, hzero⟩ := (codeStored_iff 7 code).1 (b.codeStored_of_wf hwf code h)
  exact symbolAt_of_reservedField code hzero i (by omega)

/-- The index of such a code is in range (41 R137). -/
theorem magicIndex_le_of_wf (code : Code) (h : b.holdsCode code) :
    (Machine.magicIndex code).toNat ≤ 255 :=
  Machine.magicIndex_le_of_late_dits code (b.late_dit_of_wf hwf code h)

theorem firstKeyed_question_of_wf : firstKeyed b.punctRom 0x3F#8 = some 0x3006#16 := by
  obtain ⟨-, -, hquestion, -⟩ := b.wf_iff.1 hwf
  exact beq_iff_eq.1 hquestion

/-- Entries keyed 'e', 'i', 'u' and 'w' exist (40 R112). -/
theorem firstKeyed_prosign_of_wf (ch : Character) (h : ch ∈ [0x65#8, 0x69#8, 0x75#8, 0x77#8]) :
    (firstKeyed b.punctRom ch).isSome = true := by
  obtain ⟨-, -, -, hprosigns, -⟩ := b.wf_iff.1 hwf
  exact List.all_eq_true.1 hprosigns ch h

/-- `ERROR_CODE` decodes to 'e' (40 R113). -/
theorem magicCharacter_error_of_wf : b.magicCharacter b.errorCode = some 0x65#8 := by
  obtain ⟨-, -, -, -, -, -, -, -, herror, -⟩ := b.wf_iff.1 hwf
  exact beq_iff_eq.1 herror

end

end Build

namespace Machine

/-- Settles O13: symbols 5 and 6 of a stored code are DITs, and it has no further symbols. -/
theorem romCodesEndInDits : Obligations.RomCodesEndInDits := by
  intro b code hwf hcode i hi
  rcases Nat.lt_or_ge i (symbolTotal code) with hlt | hge
  · simp [spell, hlt, b.late_dit_of_wf hwf code hcode i hi hlt, symbolOfBit]
  · simp [spell, Nat.not_lt.2 hge]

section
variable (b : Build) (ch : Character)

/-- The code of a lookup is a table entry or `ERROR_CODE` (40 R114). -/
theorem lookup_code_held : b.holdsCode (lookup b ch).code := by
  cases h : classify ch with
  | letter => exact .inl (List.mem_of_getElem? (letterRom_getElem?_of_letter b ch h))
  | digit => exact .inr (.inl (List.mem_of_getElem? (digitRom_getElem?_of_digit b ch h)))
  | other =>
    rw [lookup_of_other b ch h, scan]
    cases hfirst : firstKeyed b.punctRom ch with
    | none => exact .inr (.inr (.inr rfl))
    | some code =>
      obtain ⟨j, entry, hj, -, hcode, -⟩ := firstKeyed_eq_some _ _ _ hfirst
      exact .inr (.inr (.inl ⟨entry, List.mem_of_getElem? hj, hcode⟩))

/-- A letter's or digit's code has a count of at most 5 (10 R25). -/
theorem lookup_count_le_five (hwf : b.wf = true)
    (h : classify ch = .letter ∨ classify ch = .digit) :
    symbolTotal (lookup b ch).code ≤ 5 := by
  have hmem : (lookup b ch).code ∈ b.letterRom.toList ∨ (lookup b ch).code ∈ b.digitRom.toList :=
    h.imp (fun h => List.mem_of_getElem? (letterRom_getElem?_of_letter b ch h))
      (fun h => List.mem_of_getElem? (digitRom_getElem?_of_digit b ch h))
  obtain ⟨-, hle, -⟩ := (codeStored_iff 5 _).1 (b.directCode_stored_of_wf hwf _ hmem)
  exact hle

/-- The lookup of a character that the scan finds. -/
theorem lookup_of_firstKeyed (code : Code) (h : classify ch = .other)
    (hfirst : firstKeyed b.punctRom ch = some code) :
    lookup b ch = { code := code, found := true } := by
  rw [lookup_of_other b ch h, scan, hfirst]

end

/-- Settles O25: the looked-up code is held by the build's tables, whose codes meet 10 R25. -/
theorem encoderOutputCodes : Obligations.EncoderOutputCodes := by
  intro b ch hwf
  have hheld := lookup_code_held b ch
  obtain ⟨hlow, hhigh, hzero⟩ := (codeStored_iff 7 _).1 (b.codeStored_of_wf hwf _ hheld)
  exact ⟨hheld, hlow, hhigh, hzero, lookup_count_le_five b ch hwf,
    b.magicIndex_le_of_wf hwf _ hheld⟩

/-- The code of '?' (40 R112). -/
theorem lookup_question (b : Build) (hwf : b.wf = true) :
    lookup b 0x3F#8 = { code := 0x3006#16, found := true } :=
  lookup_of_firstKeyed b _ _ (by decide) (b.firstKeyed_question_of_wf hwf)

/-- The source's own example of a digit (40 R111). -/
theorem lookup_digit_zero (b : Build) (hwf : b.wf = true) :
    lookup b 0x30#8 = { code := 0xF805#16, found := true } := by
  have hindex : digitIndex 0x30#8 = 0 := by decide
  rw [lookup_of_digit b _ (by decide), hindex, b.readDigit_zero_of_wf hwf]

/-- Settles O26. -/
theorem punctuationCorners : Obligations.PunctuationCorners := fun b hwf =>
  ⟨lookup_question b hwf, lookup_error_prosign b hwf,
    fun ch h => lookup_of_not_printable b hwf ch (by omega)⟩

/-- Settles O43: the lookups of the three characters, and the round trips of 41 R138. -/
theorem sourceExamples : Obligations.SourceExamples := fun b hwf =>
  ⟨by rw [lookup_letter_a b hwf], b.magicCharacter_letter_a_of_wf hwf,
    by rw [lookup_digit_zero b hwf], b.magicCharacter_digit_zero_of_wf hwf,
    by rw [lookup_question b hwf], b.magicCharacter_question_of_wf hwf⟩

end Machine

end Sys2Proof
end

section
/-! Round trips through the encoder and the decoder (41 R137, R140, R142, R143): the character at
the magic index of a looked-up code, and the two transactions that give it. -/

namespace Sys2Proof.Machine

section
variable (b : Build) (hwf : b.wf = true) (ch : Character)
include hwf

/-- A letter round-trips (41 R138 constraint 1). -/
theorem magicCharacter_lookup_letter (h : classify ch = .letter) :
    b.magicCharacter (lookup b ch).code = some ch := by
  obtain ⟨-, hoffset, hle⟩ := letter_offset ch h
  have hround := b.magicCharacter_readLetter_of_wf hwf (ch - 0x41#8).toNat (by omega)
  rw [BitVec.ofNat_toNat, BitVec.setWidth_eq, add_sub_cancel] at hround
  rw [lookup_of_letter b ch h]
  exact hround

/-- A digit round-trips (41 R138 constraint 2). -/
theorem magicCharacter_lookup_digit (h : classify ch = .digit) :
    b.magicCharacter (lookup b ch).code = some ch := by
  obtain ⟨-, hoffset, hle⟩ := digit_offset ch h
  have hround := b.magicCharacter_readDigit_of_wf hwf (ch - 0x30#8).toNat (by omega)
  rw [BitVec.ofNat_toNat, BitVec.setWidth_eq, add_sub_cancel] at hround
  rw [lookup_of_digit b ch h]
  exact hround

/-- A key round-trips, but for 'i', 'u' and 'w' (41 R138 constraint 3). -/
theorem magicCharacter_lookup_key (hother : classify ch = .other)
    (hkey : ∃ entry ∈ b.punctRom, entry.key = ch) (hprosign : Build.prosignOnly ch = false) :
    b.magicCharacter (lookup b ch).code = some ch := by
  obtain ⟨code, hfirst⟩ :=
    Option.isSome_iff_exists.1 ((firstKeyed_isSome_iff b.punctRom ch).2 hkey)
  rw [lookup_of_firstKeyed b ch code hother hfirst]
  exact b.magicCharacter_of_firstKeyed_of_wf hwf ch code hfirst hprosign

/-- The characters of 41 R142 round-trip, letters and digits that are keys too among them. -/
theorem magicCharacter_lookup
    (h : classify ch = .letter ∨ classify ch = .digit ∨ ch = 0x3F#8 ∨ ch = 0x65#8 ∨
      ((∃ entry ∈ b.punctRom, entry.key = ch) ∧ ch ≠ 0x69#8 ∧ ch ≠ 0x75#8 ∧ ch ≠ 0x77#8)) :
    b.magicCharacter (lookup b ch).code = some ch := by
  cases hclass : classify ch with
  | letter => exact magicCharacter_lookup_letter b hwf ch hclass
  | digit => exact magicCharacter_lookup_digit b hwf ch hclass
  | other =>
    rw [hclass] at h
    obtain ⟨⟨⟩⟩ | ⟨⟨⟩⟩ | rfl | rfl | ⟨hkey, hi, hu, hw⟩ := h
    · rw [lookup_question b hwf]
      exact b.magicCharacter_question_of_wf hwf
    · rw [lookup_error_prosign b hwf]
      exact b.magicCharacter_error_of_wf hwf
    · exact magicCharacter_lookup_key b hwf ch hclass hkey (by simp [Build.prosignOnly, hi, hu, hw])

/-- The code of 'i', 'u' or 'w' decodes to what the configuration fixes for the key (41 R140). -/
theorem magicCharacter_lookup_alias (h : ch = 0x69#8 ∨ ch = 0x75#8 ∨ ch = 0x77#8) :
    ∃ c, b.aliasDecode ch = some c ∧ b.magicCharacter (lookup b ch).code = some c := by
  have hother : classify ch = .other := by rcases h with rfl | rfl | rfl <;> decide
  obtain ⟨code, hfirst⟩ :=
    Option.isSome_iff_exists.1 (b.firstKeyed_prosign_of_wf hwf ch (by simp [h]))
  have hlookup := lookup_of_firstKeyed b ch code hother hfirst
  have hle := b.magicIndex_le_of_wf hwf _ (lookup_code_held b ch)
  have hcharacter := (b.magicCharacter_eq_some_iff _ _).2 ⟨hle, rfl⟩
  rw [hlookup] at hcharacter ⊢
  exact ⟨_, by rw [Build.aliasDecode, hfirst]; exact hcharacter, hcharacter⟩

end

/-- Two transactions: `char_to_code` and, in a state with the same build, `code_to_char` of its
answer. The character at the index of the looked-up code is the second answer. -/
theorem codeToChar_of_charToCode (s u : State) (p q : Nat) (port port' : Port) (ch c : Character)
    (hbuild : u.build = s.build) (hf : s.inFlight = some p) (hp : s.ports[p]? = some port)
    (hf' : u.inFlight = some q) (hp' : u.ports[q]? = some port')
    (h : s.build.magicCharacter (lookup s.build ch).code = some c) :
    ∃ (t v : State) (a a' : Port),
      exec (.charToCode ch) s = .next t ∧ t.ports[p]? = some a ∧ a.response.status = .ok ∧
      exec (.codeToChar a.response.codeOut) u = .next v ∧ v.ports[q]? = some a' ∧
      a'.response.status = .ok ∧ a'.response.chOut = c := by
  obtain ⟨hle, hcharacter⟩ := (s.build.magicCharacter_eq_some_iff _ c).1 h
  have hserve := Port.serve_codeToChar_of_le u.build u.draws (lookup s.build ch).code port' hle
  refine ⟨_, _, _, _, exec_eq_served _ s p port hf hp, s.served_port_same p port _ hp, rfl,
    exec_eq_served _ u q port' hf' hp', u.served_port_same q port' _ hp', ?_⟩
  rw [Port.serve_charToCode, codeResponse_codeOut, hserve, hbuild]
  exact ⟨rfl, hcharacter⟩

/-- Settles O39. -/
theorem roundTripGivesCharacterBack : Obligations.RoundTripGivesCharacterBack := by
  intro s u p q port port' ch hwf hbuild hf hp hf' hp' h
  exact codeToChar_of_charToCode s u p q port port' ch ch hbuild hf hp hf' hp'
    (magicCharacter_lookup s.build hwf ch h)

/-- Settles O40. -/
theorem aliasesDecodeAsConfigured : Obligations.AliasesDecodeAsConfigured := by
  intro s u p q port port' ch hwf hbuild hf hp hf' hp' h
  obtain ⟨c, halias, hcharacter⟩ := magicCharacter_lookup_alias s.build hwf ch h
  obtain ⟨t, v, a, a', hround⟩ :=
    codeToChar_of_charToCode s u p q port port' ch c hbuild hf hp hf' hp' hcharacter
  exact ⟨c, t, v, a, a', halias, hround⟩

/-- Settles O41: the code of an absent character is `ERROR_CODE`, which decodes to 'e'. -/
theorem absentCharacterDecodesToE : Obligations.AbsentCharacterDecodesToE := by
  intro s u p q port port' ch hwf hbuild hf hp hf' hp' hother habsent
  refine codeToChar_of_charToCode s u p q port port' ch _ hbuild hf hp hf' hp' ?_
  rw [lookup_of_absent s.build ch hother habsent]
  exact s.build.magicCharacter_error_of_wf hwf

/-- In range, neither decoder operation has a fault to record (60 R162). -/
theorem expectedFaults_decoder_of_le (code : Code) (i : Instr)
    (hi : i = .codeToChar code ∨ i = .decode code) (h : (magicIndex code).toNat ≤ 255) :
    expectedFaults i = [] := by
  rcases hi with rfl | rfl <;> simp [expectedFaults, magicInRange, h]

/-- Settles O42: the index of a looked-up code is in range, and there neither operation faults. -/
theorem encoderOutputNeverFaults : Obligations.EncoderOutputNeverFaults := by
  intro s p port ch i hwf hf hp hi
  have hle := s.build.magicIndex_le_of_wf hwf _ (lookup_code_held s.build ch)
  refine ⟨(magicIndex_le_iff_upper_zero _).1 hle, _, _, exec_eq_served i s p port hf hp,
    s.served_port_same p port _ hp,
    Port.serve_decoder_status_of_le s.build s.draws _ port i hi hle, ?_⟩
  rw [Port.serve_faults, expectedFaults_decoder_of_le _ i hi hle, List.append_nil]

end Sys2Proof.Machine
end

section
/-! The constraints on the tables, those among them that are derived (40 R112, R113, 41 R139), and
the block's own build, which meets them (70 R193; log 2). -/

namespace Sys2Proof

namespace Build

variable (b : Build)

/-- A character at a code's index is the entry of `MAGIC_ROM` there. -/
theorem magicRom_getElem?_of_magicCharacter (code : Code) (c : Character)
    (h : b.magicCharacter code = some c) :
    b.magicRom.toList[(Machine.magicIndex code).toNat]? = some c := by
  obtain ⟨hle, rfl⟩ := (b.magicCharacter_eq_some_iff code c).1 h
  exact Machine.magicRom_getElem?_of_le b code hle

section
variable (hwf : b.wf = true)
include hwf

/-- Each code of `LETTER_ROM` decodes to its letter. -/
theorem magicCharacter_of_mem_letterRom (code : Code) (h : code ∈ b.letterRom.toList) :
    ∃ i < 26, b.magicCharacter code = some (0x41#8 + BitVec.ofNat 8 i) := by
  obtain ⟨i, hi, rfl⟩ := List.getElem_of_mem h
  have hlt : i < 26 := by simpa using hi
  have hround := b.magicCharacter_readLetter_of_wf hwf i hlt
  exact ⟨i, hlt, by simpa [readLetter, Vector.get_eq_getElem, Nat.mod_eq_of_lt hlt] using hround⟩

/-- Each code of `DIGIT_ROM` decodes to its digit. -/
theorem magicCharacter_of_mem_digitRom (code : Code) (h : code ∈ b.digitRom.toList) :
    ∃ i < 10, b.magicCharacter code = some (0x30#8 + BitVec.ofNat 8 i) := by
  obtain ⟨i, hi, rfl⟩ := List.getElem_of_mem h
  have hlt : i < 10 := by simpa using hi
  have hround := b.magicCharacter_readDigit_of_wf hwf i hlt
  exact ⟨i, hlt, by simpa [readDigit, Vector.get_eq_getElem, Nat.mod_eq_of_lt hlt] using hround⟩

/-- `ERROR_CODE` decodes to 'e', so it is no code that decodes to another character. -/
theorem errorCode_ne_of_magicCharacter (code : Code) (c : Character)
    (h : b.magicCharacter code = some c) (hc : c ≠ 0x65#8) : b.errorCode ≠ code := by
  rintro rfl
  exact hc (Option.some.inj (h.symm.trans (b.magicCharacter_error_of_wf hwf)))

/-- 'e' is no uppercase letter. -/
theorem errorCode_not_mem_letterRom : b.errorCode ∉ b.letterRom.toList := by
  intro hmem
  obtain ⟨i, hi, hround⟩ := b.magicCharacter_of_mem_letterRom hwf _ hmem
  have hne : ∀ i < 26, 0x41#8 + BitVec.ofNat 8 i ≠ 0x65#8 := by decide
  exact b.errorCode_ne_of_magicCharacter hwf _ _ hround (hne i hi) rfl

/-- 'e' is no digit. -/
theorem errorCode_not_mem_digitRom : b.errorCode ∉ b.digitRom.toList := by
  intro hmem
  obtain ⟨i, hi, hround⟩ := b.magicCharacter_of_mem_digitRom hwf _ hmem
  have hne : ∀ i < 10, 0x30#8 + BitVec.ofNat 8 i ≠ 0x65#8 := by decide
  exact b.errorCode_ne_of_magicCharacter hwf _ _ hround (hne i hi) rfl

/-- The five keys every build has (40 R112). -/
theorem exists_key_of_wf (ch : Character) (h : ch ∈ [0x3F#8, 0x65#8, 0x69#8, 0x75#8, 0x77#8]) :
    ∃ entry ∈ b.punctRom, entry.key = ch := by
  rw [← firstKeyed_isSome_iff]
  rcases List.mem_cons.1 h with rfl | hprosign
  · rw [b.firstKeyed_question_of_wf hwf]
    rfl
  · exact b.firstKeyed_prosign_of_wf hwf ch hprosign

/-- Five different keys take five entries. -/
theorem punctRom_length_of_wf : 5 ≤ b.punctRom.length := by
  have hsub : [0x3F#8, 0x65#8, 0x69#8, 0x75#8, 0x77#8] ⊆ b.punctRom.map PunctEntry.key := by
    intro ch h
    exact List.mem_map.2 (b.exists_key_of_wf hwf ch h)
  have hle := (List.subperm_of_subset (by decide) hsub).length_le
  rwa [List.length_map] at hle

end

end Build

namespace Machine

/-- Settles O44. -/
theorem errorCodeConstraints : Obligations.ErrorCodeConstraints := by
  intro b hwf
  obtain ⟨hlow, hhigh, hzero⟩ := (codeStored_iff 7 _).1 (b.errorCode_stored_of_wf hwf)
  exact ⟨hlow, hhigh, hzero,
    b.magicRom_getElem?_of_magicCharacter _ _ (b.magicCharacter_error_of_wf hwf),
    firstKeyed_eq_some _ _ _ (b.firstKeyed_error_of_wf hwf), b.errorCode_not_mem_letterRom hwf,
    b.errorCode_not_mem_digitRom hwf,
    b.errorCode_ne_of_magicCharacter hwf _ _ (b.magicCharacter_question_of_wf hwf) (by decide)⟩

/-- Settles O46. -/
theorem punctuationTableConstraints : Obligations.PunctuationTableConstraints := by
  refine fun b hwf => ⟨b.punctRom_length_of_wf hwf, b.exists_key_of_wf hwf, fun entry hmem => ?_⟩
  obtain ⟨hlow, hhigh⟩ := b.key_printable_of_wf hwf entry hmem
  exact ⟨hlow, hhigh, (codeStored_iff 7 _).1 (b.punctCode_stored_of_wf hwf entry hmem)⟩

/-- Each entry of 41 R139 is a letter of the default table at its index, a digit, or '?'. -/
theorem fixedMagicEntries_source : ∀ entry ∈ fixedMagicEntries,
    (∃ i < 26, (magicIndex (defaultLetterRom.get (Fin.ofNat 26 i))).toNat = entry.1 ∧
      0x41#8 + BitVec.ofNat 8 i = entry.2) ∨
    (∃ i < 10, (magicIndex (defaultDigitRom.get (Fin.ofNat 10 i))).toNat = entry.1 ∧
      0x30#8 + BitVec.ofNat 8 i = entry.2) ∨
    ((magicIndex 0x3006#16).toNat = entry.1 ∧ 0x3F#8 = entry.2) := by
  decide +kernel

section
variable (b : Build)

theorem usesDefaultTables_iff :
    usesDefaultTables b = true ↔ b.letterRom = defaultLetterRom ∧ b.digitRom = defaultDigitRom := by
  simp [usesDefaultTables]

/-- With the default tables, the entries of 41 R139 are round trips of 41 R138. -/
theorem magicRom_getElem?_of_fixed (hwf : b.wf = true) (hdefault : usesDefaultTables b = true)
    (entry : Nat × Character) (hmem : entry ∈ fixedMagicEntries) :
    b.magicRom.toList[entry.1]? = some entry.2 := by
  obtain ⟨hletters, hdigits⟩ := (usesDefaultTables_iff b).1 hdefault
  obtain ⟨i, hi, hindex, hchar⟩ | ⟨i, hi, hindex, hchar⟩ | ⟨hindex, hchar⟩ :=
    fixedMagicEntries_source entry hmem
  · rw [← hindex, ← hchar, ← hletters]
    exact b.magicRom_getElem?_of_magicCharacter _ _ (b.magicCharacter_readLetter_of_wf hwf i hi)
  · rw [← hindex, ← hchar, ← hdigits]
    exact b.magicRom_getElem?_of_magicCharacter _ _ (b.magicCharacter_readDigit_of_wf hwf i hi)
  · rw [← hindex, ← hchar]
    exact b.magicRom_getElem?_of_magicCharacter _ _ (b.magicCharacter_question_of_wf hwf)

end

/-- Settles O45: `MAGIC_ROM` holds 'e' at the index of `ERROR_CODE`, and 'e' is none of the 37
characters. -/
theorem fixedMagicEntries_of_wf : Obligations.FixedMagicEntries := by
  refine fun b hwf hdefault => ⟨rfl, magicRom_getElem?_of_fixed b hwf hdefault, ?_⟩
  intro entry hmem hindex
  have hfixed := magicRom_getElem?_of_fixed b hwf hdefault entry hmem
  have herror := b.magicRom_getElem?_of_magicCharacter _ _ (b.magicCharacter_error_of_wf hwf)
  have hne : ∀ entry ∈ fixedMagicEntries, entry.2 ≠ 0x65#8 := by decide
  rw [← hindex, hfixed] at herror
  exact hne entry hmem (Option.some.inj herror)

/-- Settles O47: the OPEN tables are taken only where they make an admissible build, and T0 makes
one. -/
theorem blockBuildIsAdmissible : Obligations.BlockBuildIsAdmissible := by
  refine ⟨?_, (usesDefaultTables_iff _).2 ⟨rfl, rfl⟩⟩
  by_cases h : (assembleBuild Config.openTables).wf = true
  · simp [blockBuild, openTables, h]
  · have htest : (assembleBuild testTables).wf = true := by decide +kernel
    simpa [blockBuild, openTables, h] using htest

/-- The character a list of entries fixes at an index is one of its entries. -/
theorem mem_of_fixedMagic (entries : List (Nat × Character)) (i : Nat) (c : Character)
    (h : fixedMagic entries i = some c) : (i, c) ∈ entries := by
  induction entries with
  | nil => simp [fixedMagic] at h
  | cons entry rest ih =>
    by_cases hi : entry.1 = i
    · simp only [fixedMagic, hi, if_true, Option.some.injEq] at h
      simp [← hi, ← h]
    · simp only [fixedMagic, hi, if_false] at h
      exact List.mem_cons_of_mem _ (ih h)

theorem charactersFrom_getElem? (f : Nat → Character) (count i j : Nat) (h : j < count) :
    (charactersFrom f count i)[j]? = some (f (i + j)) := by
  induction count generalizing i j with
  | zero => omega
  | succ more ih =>
    cases j with
    | zero => rfl
    | succ j =>
      have hrest := ih (i + 1) j (by omega)
      rw [charactersFrom, List.getElem?_cons_succ, hrest]
      congr 2
      omega

theorem magicTable_getElem (f : Nat → Character) (i : Nat) (h : i < 256) :
    (magicTable f)[i] = f i := by
  have hentry := charactersFrom_getElem? f 256 0 i h
  rw [Nat.zero_add] at hentry
  exact (List.getElem?_eq_some_iff.1 hentry).2

/-- Putting the 37 entries in place changes nothing of a table that holds them. -/
theorem withFixedMagic_eq_self (rom : Vector Character 256)
    (h : ∀ entry ∈ fixedMagicEntries, rom.toList[entry.1]? = some entry.2) :
    withFixedMagic rom = rom := by
  apply Vector.ext
  intro i hi
  rw [withFixedMagic, magicTable_getElem _ i hi]
  cases hfixed : fixedMagic fixedMagicEntries i with
  | none => simp [Vector.get_eq_getElem, Nat.mod_eq_of_lt hi]
  | some c =>
    have hentry := h _ (mem_of_fixedMagic _ i c hfixed)
    simpa [hi] using hentry.symm

/-- Settles O48. -/
theorem assembledBuildIsGeneral : Obligations.AssembledBuildIsGeneral := by
  intro b hwf hdefault
  obtain ⟨hletters, hdigits⟩ := (usesDefaultTables_iff b).1 hdefault
  have hmagic := withFixedMagic_eq_self b.magicRom (magicRom_getElem?_of_fixed b hwf hdefault)
  rw [assembleBuild, hmagic, ← hletters, ← hdigits]

/-- A port just after reset conforms: it has put out nothing and recorded nothing. -/
theorem Port.reset_conforms (b : Build) (d : Nat) : (Port.reset d).conforms b = true := by
  simp [Port.conforms, outputsConform, outputFaults, lastResponse]

/-- The ports just after reset are reset ports. -/
theorem eq_reset_of_mem_resetPorts (count d : Nat) (port : Port) (h : port ∈ resetPorts count d) :
    ∃ d', port = Port.reset d' := by
  obtain ⟨p, hp⟩ := List.mem_iff_getElem?.1 h
  have hlt : p < count := by simpa using (List.getElem?_eq_some_iff.1 hp).1
  rw [resetPorts_getElem? count d p hlt, Option.some.injEq] at hp
  exact ⟨_, hp.symm⟩

/-- Settles O53. -/
theorem invariantAtReset : Obligations.InvariantAtReset := by
  refine (State.inv_iff _).2 ⟨blockBuildIsAdmissible.1, by simp [Config.numPorts], ?_, by simp, rfl⟩
  intro port hmem
  obtain ⟨d, rfl⟩ := eq_reset_of_mem_resetPorts _ _ port hmem
  exact Port.reset_conforms _ d

end Machine

end Sys2Proof
end

section
/-! The assembler (30 section 6): a line is taken apart at its first space, and hexadecimal text and
spelling literals are read back as what they are written from. -/

namespace Sys2Proof.Machine.Assembler

section
variable (name rest : List Char) (c : Char) (hname : ∀ x ∈ name, (x != ' ') = true)
include hname

theorem firstWord_append : firstWord (name ++ ' ' :: rest) = name := by
  rw [firstWord, List.takeWhile_append_of_pos hname]
  simp

theorem afterFirstWord_append (hc : c ≠ ' ') :
    afterFirstWord (name ++ ' ' :: c :: rest) = c :: rest := by
  rw [afterFirstWord, List.dropWhile_append_of_pos hname]
  simp [hc]

end

section
variable (rest : List Char) (c : Char) (hc : c ≠ ' ')
include hc

theorem parseLine_charToCode :
    parseLine (charToCodeName ++ ' ' :: c :: rest) =
      (parseCharacter (c :: rest)).map Instr.charToCode := by
  have hname : ∀ x ∈ charToCodeName, (x != ' ') = true := by simp [charToCodeName]
  rw [parseLine, firstWord_append _ _ hname, afterFirstWord_append _ _ _ hname hc, if_pos rfl]

theorem parseLine_encode :
    parseLine (encodeName ++ ' ' :: c :: rest) = (parseCharacter (c :: rest)).map Instr.encode := by
  have hname : ∀ x ∈ encodeName, (x != ' ') = true := by simp [encodeName]
  rw [parseLine, firstWord_append _ _ hname, afterFirstWord_append _ _ _ hname hc,
    if_neg (by decide), if_pos rfl]

theorem parseLine_codeToChar :
    parseLine (codeToCharName ++ ' ' :: c :: rest) =
      (parseCode (c :: rest)).map Instr.codeToChar := by
  have hname : ∀ x ∈ codeToCharName, (x != ' ') = true := by simp [codeToCharName]
  rw [parseLine, firstWord_append _ _ hname, afterFirstWord_append _ _ _ hname hc,
    if_neg (by decide), if_neg (by decide), if_pos rfl]

theorem parseLine_decode :
    parseLine (decodeName ++ ' ' :: c :: rest) = (parseCode (c :: rest)).map Instr.decode := by
  have hname : ∀ x ∈ decodeName, (x != ' ') = true := by simp [decodeName]
  rw [parseLine, firstWord_append _ _ hname, afterFirstWord_append _ _ _ hname hc,
    if_neg (by decide), if_neg (by decide), if_neg (by decide), if_pos rfl]

end

theorem hexDigit_hexDigitOf : ∀ d < 16, hexDigit (hexDigitOf d) = some d := by decide

/-- The last digit read is the lowest one. -/
theorem hexNumber_append_digit (cs : List Char) (c : Char) (acc n d : Nat)
    (hcs : hexNumber acc cs = some n) (hc : hexDigit c = some d) :
    hexNumber acc (cs ++ [c]) = some (16 * n + d) := by
  induction cs generalizing acc with
  | nil =>
    obtain rfl : acc = n := Option.some.inj hcs
    simp [hexNumber, hc]
  | cons x rest ih =>
    cases hx : hexDigit x with
    | none => simp [hexNumber, hx] at hcs
    | some e =>
      simp only [hexNumber, hx, List.cons_append] at hcs ⊢
      exact ih _ hcs

/-- Hexadecimal text with room for the number is read back as the number. -/
theorem hexNumber_hexText (count n : Nat) (h : n < 16 ^ count) :
    hexNumber 0 (hexText count n) = some n := by
  induction count generalizing n with
  | zero =>
    obtain rfl : n = 0 := by simpa using h
    rfl
  | succ more ih =>
    have hupper := ih (n / 16) (Nat.div_lt_of_lt_mul (by rwa [Nat.pow_succ'] at h))
    have hdigit := hexDigit_hexDigitOf (n % 16) (Nat.mod_lt n (by decide))
    rw [hexText, hexNumber_append_digit _ _ _ _ _ hupper hdigit, Nat.div_add_mod]

theorem hexText_length (count n : Nat) : (hexText count n).length = count := by
  induction count generalizing n with
  | zero => rfl
  | succ more ih => simp [hexText, ih]

theorem hexOfLength_hexText (count n : Nat) (h : n < 16 ^ count) :
    hexOfLength count (hexText count n) = some n := by
  rw [hexOfLength, if_pos (hexText_length count n), hexNumber_hexText count n h]

theorem parseCharacter_hexText (ch : Character) :
    parseCharacter ('0' :: 'x' :: hexText 2 ch.toNat) = some ch := by
  simp [parseCharacter, hexOfLength_hexText 2 ch.toNat ch.isLt]

theorem parseCode_hexText (code : Code) :
    parseCode ('0' :: 'x' :: hexText 4 code.toNat) = some code := by
  simp [parseCode, hexOfLength_hexText 4 code.toNat code.isLt]

/-- The line written for an operation reads as the operation. -/
theorem parseLine_lineOf (i : Instr) : parseLine (lineOf i) = some i := by
  cases i with
  | charToCode ch =>
    rw [lineOf, parseLine_charToCode _ _ (by decide), parseCharacter_hexText, Option.map_some]
  | encode ch =>
    rw [lineOf, parseLine_encode _ _ (by decide), parseCharacter_hexText, Option.map_some]
  | codeToChar code =>
    rw [lineOf, parseLine_codeToChar _ _ (by decide), parseCode_hexText, Option.map_some]
  | decode code =>
    rw [lineOf, parseLine_decode _ _ (by decide), parseCode_hexText, Option.map_some]

/-- Settles O10: a line assembles to the word of the operation it names, and such words are legal.
-/
theorem assemblerLineGivesRequestWord : Obligations.AssemblerLineGivesRequestWord := by
  refine ⟨fun i => ?_, fun line w h => ?_, by decide, by decide⟩
  · rw [assemble, parseLine_lineOf, Option.map_some]
  · obtain ⟨i, -, rfl⟩ := Option.map_eq_some_iff.1 h
    exact requestLegal_encodeRequest i

/-- The character that stands for a symbol in a spelling literal (30 R75). -/
def symbolChar (symbol : Symbol) : Char := if symbol = .dit then '.' else '-'

/-- A symbol with something after it is read and put before the symbols of the rest. -/
theorem parseSpelling_cons (symbol : Symbol) (c : Char) (rest : List Char) :
    parseSpelling (symbolChar symbol :: c :: rest) =
      (parseSpelling (c :: rest)).map (symbol :: ·) := by
  cases symbol <;> rfl

/-- A spelling literal up to its quote is read back as the spelling. -/
theorem parseSpelling_literal (symbols : List Symbol) :
    parseSpelling (symbols.map symbolChar ++ [quoteMark]) = some symbols := by
  induction symbols with
  | nil => rfl
  | cons symbol rest ih =>
    obtain ⟨c, cs, hcons⟩ : ∃ c cs, rest.map symbolChar ++ [quoteMark] = c :: cs :=
      List.exists_cons_of_ne_nil (by simp)
    rw [List.map_cons, List.cons_append, hcons, parseSpelling_cons, ← hcons, ih, Option.map_some]

/-- A spelling literal is the code `pack` gives its symbols, if it gives one (30 R76). -/
theorem parseCode_literal (symbols : List Symbol) :
    parseCode ('m' :: quoteMark :: (symbols.map symbolChar ++ [quoteMark])) = pack symbols := by
  simp [parseCode, parseSpelling_literal]

/-- Settles O11. -/
theorem spellingLiteralIsPacked : Obligations.SpellingLiteralIsPacked := by
  intro symbols
  change assemble (codeToCharName ++
    ' ' :: 'm' :: quoteMark :: (symbols.map symbolChar ++ [quoteMark])) = _
  rw [assemble, parseLine_codeToChar _ _ (by decide), parseCode_literal, Option.map_map]
  rfl

end Sys2Proof.Machine.Assembler
end
